-- ==== Sys2Proof/Word.lean ====
section
/-! DEFINITION. The words of ECRC: a byte of memory, a 64-bit host-interface word, and the four operand and
register widths (spec/00_scope.md R8, R14; spec/30_encoding.md R73). -/

namespace Sys2Proof

/-- One byte of memory, and the byte operand of the kernel (R51, R77). -/
abbrev Byte := BitVec 8

/-- One host-interface register: a whole 64-bit word (R24, R28). -/
abbrev Word := BitVec 64

/-- A name: a string of bytes, without its terminating 0x00 (R113). -/
abbrev Name := List Byte

/-- The four widths: the instance width W (R8) and the operand width n of REFLECT and INSERT (R73). -/
inductive Width where
  | w8
  | w16
  | w32
  | w64
deriving DecidableEq, Repr

/-- The number of bits of a width: 8, 16, 32 or 64 (R8, R73). -/
def Width.bits : Width → Nat
  | .w8 => 8
  | .w16 => 16
  | .w32 => 32
  | .w64 => 64

/-- The number of bytes of a width, n/8 (R103, R172). -/
def Width.bytes : Width → Nat
  | .w8 => 1
  | .w16 => 2
  | .w32 => 4
  | .w64 => 8

end Sys2Proof
end

