-- ==== Sys2Proof/Config.lean ====
section
/-! DEFINITION. What an ECRC instance is built with (spec/00_scope.md R8 to R13, spec/20_memory.md R55): the width W, the address
width AW, the catalogue, the zero-length policy and the memory the platform holds, as ONE record of plain data; and
the free value of the model, the allocator's draw (R11). -/

namespace Sys2Proof

/-- A row of CATALOGUE (R10). Its W-bit fields are held as 64-bit words with zeros above bit W-1 (R17);
`Params.WellFormed` says so. -/
structure CatalogRow where
  primaryName : Name
  aliases : List Name
  polynomial : Word
  initial : Word
  reflectIn : Bool
  reflectOut : Bool
  xorOut : Word
  check : Word
  residue : Word
deriving DecidableEq, Repr

/-- ZERO_LEN_POLICY (R13): what CALCULATE returns for a present buffer of length 0 (R171). -/
inductive ZeroLenPolicy where
  | finalize
  | raw
deriving DecidableEq, Repr

/-- A half-open range of addresses `[lo, hi)` that memory holds (R55). -/
structure Region where
  lo : Nat
  hi : Nat
deriving DecidableEq, Repr

/-- The parameters of an instance. No command, host action or reset changes them (R8, R10, R36). -/
structure Params where
  /-- W (R8). -/
  width : Width
  /-- AW (R9). -/
  addrBits : Nat
  /-- CATALOGUE, in order (R10). -/
  catalogue : List CatalogRow
  /-- ZERO_LEN_POLICY (R13). -/
  zeroLen : ZeroLenPolicy
  /-- The addresses memory holds: `admits(a)` (R55) is membership in one of these ranges. -/
  regions : List Region
deriving DecidableEq, Repr

namespace Config

/-- FREE VALUE (log entry 1). The draw `allocOk` of R11: whether the table storage could be had at the k-th draw.
It has no body, so a statement holds for either outcome of every draw. -/
opaque allocOk : Nat → Bool

/-- DESIGN CHOICE (log entry 2, unsafe). What a byte of memory that nothing has written reads as: 0x00, the value
spec/95_test_vectors.md gives all memory its programs do not list. -/
abbrev unwrittenByte : Byte := 0

/-- The row the spec gives (R12), CRC-32/ISO-HDLC, with its five aliases. -/
def exampleRow : CatalogRow where
  -- "CRC-32/ISO-HDLC"
  primaryName := [0x43, 0x52, 0x43, 0x2D, 0x33, 0x32, 0x2F, 0x49, 0x53, 0x4F, 0x2D, 0x48, 0x44, 0x4C, 0x43]
  aliases :=
    [ [0x43, 0x52, 0x43, 0x2D, 0x33, 0x32],                                     -- "CRC-32"
      [0x50, 0x4B, 0x5A, 0x49, 0x50],                                           -- "PKZIP"
      [0x43, 0x52, 0x43, 0x2D, 0x33, 0x32, 0x2F, 0x41, 0x44, 0x43, 0x43, 0x50], -- "CRC-32/ADCCP"
      [0x43, 0x52, 0x43, 0x2D, 0x33, 0x32, 0x2F, 0x56, 0x2D, 0x34, 0x32],       -- "CRC-32/V-42"
      [0x43, 0x52, 0x43, 0x2D, 0x33, 0x32, 0x2F, 0x58, 0x5A] ]                  -- "CRC-32/XZ"
  polynomial := 0x04C11DB7
  initial := 0xFFFFFFFF
  reflectIn := true
  reflectOut := true
  xorOut := 0xFFFFFFFF
  check := 0xCBF43926
  residue := 0xDEBB20E3

/-- The parameters `State.reset` is built with (log entry 3, DESIGN CHOICE): the default premises of
spec/95_test_vectors.md, namely W = 32, AW = 64, the example row, Finalize, and memory at every address but 0. Every
statement of the model quantifies over the parameters, so none rests on these. -/
def defaultParams : Params where
  width := .w32
  addrBits := 64
  catalogue := [exampleRow]
  zeroLen := .finalize
  regions := [{ lo := 1, hi := 2 ^ 64 }]

end Config

end Sys2Proof
end

