-- ==== Sys2Proof/Syntax.lean ====
section
/-! DEFINITION. The commands of ECRC: one constructor per row of spec/opcode_table.json
(spec/30_encoding.md R71, R72), with the fields of the command word as plain arguments (R73, R74). -/

namespace Sys2Proof

/-- A command, as decoded from the 32-bit command word written to CMD (R70, R71). The operands that are not in
the word come from the registers A, B, ADDR, LEN and DLEN (R77). -/
inductive Instr where
  /-- REFLECT.n (R101): NSEL gives n. -/
  | reflect (n : Width)
  /-- INSERT.n (R104): NSEL gives n, BE the byte order (1 is big-endian). -/
  | insert (n : Width) (bigEndian : Bool)
  /-- RESOLVE (R110): CT asks for a lookup table. -/
  | resolve (createTable : Bool)
  /-- CALC_PARTIAL (R139): the FIRST and LAST flags. -/
  | calcPartial (first : Bool) (last : Bool)
  /-- CALCULATE (R170). -/
  | calculate
  /-- CALC_APPEND (R172). -/
  | calcAppend
  /-- VERIFY (R174). -/
  | verify
  /-- RELEASE (R190). -/
  | release
deriving DecidableEq, Repr

end Sys2Proof
end

