-- ==== Sys2Proof/WellFormed.lean ====
section
/-! DEFINITION. What is well formed: a command word, by the match and mask table of spec/30_encoding.md R72; a command;
and the parameters of an instance (spec/00_scope.md R8 to R10, R17; spec/20_memory.md R55). -/

namespace Sys2Proof

/-- A row of the match and mask table of R72. -/
structure CommandRow where
  mnemonic : String
  mtch : Word
  mask : Word
deriving DecidableEq, Repr

/-- The table of R72, row by row. -/
def commandTable : List CommandRow :=
  [ { mnemonic := "REFLECT",      mtch := 0x00000001, mask := 0xFFFFFFCF },
    { mnemonic := "INSERT",       mtch := 0x00000002, mask := 0xFFFFFECF },
    { mnemonic := "RESOLVE",      mtch := 0x00000003, mask := 0xFFFFFDFF },
    { mnemonic := "CALC_PARTIAL", mtch := 0x00000004, mask := 0xFFFFFF3F },
    { mnemonic := "CALCULATE",    mtch := 0x00000005, mask := 0xFFFFFFFF },
    { mnemonic := "CALC_APPEND",  mtch := 0x00000006, mask := 0xFFFFFFFF },
    { mnemonic := "VERIFY",       mtch := 0x00000007, mask := 0xFFFFFFFF },
    { mnemonic := "RELEASE",      mtch := 0x00000008, mask := 0xFFFFFFFF } ]

/-- `(c & mask) = match` (R72), for the low 32 bits of the word written to CMD. -/
def CommandRow.matchesWord (r : CommandRow) (c : Word) : Bool := (c &&& r.mask) == r.mtch

/-- The word written to CMD is a command word: bits [63:32] are 0 (R70) and a row of R72 matches it. -/
def wellFormedWord (c : Word) : Bool :=
  c.extractLsb 63 32 == 0 && commandTable.any (·.matchesWord c)

/-- The mnemonic of a command (R71). -/
def Instr.mnemonic : Instr → String
  | .reflect _ => "REFLECT"
  | .insert _ _ => "INSERT"
  | .resolve _ => "RESOLVE"
  | .calcPartial _ _ => "CALC_PARTIAL"
  | .calculate => "CALCULATE"
  | .calcAppend => "CALC_APPEND"
  | .verify => "VERIFY"
  | .release => "RELEASE"

/-- Every term of `Instr` is well formed: each of the four widths is legal for REFLECT and INSERT whatever W is (R73), and
each flag bit may be 0 or 1 (R74). What can be ill-formed is the WORD (`wellFormedWord`, R75). -/
def Instr.wellFormed : Instr → Bool
  | .reflect _ => true
  | .insert _ _ => true
  | .resolve _ => true
  | .calcPartial _ _ => true
  | .calculate => true
  | .calcAppend => true
  | .verify => true
  | .release => true

/-- A W-bit quantity in a 64-bit word: zeros above bit W-1 (R17). -/
abbrev FitsWidth (w : Width) (v : Word) : Prop := v.toNat < 2 ^ w.bits

/-- A catalogue row whose five numeric fields are W-bit quantities (R10, R17). -/
abbrev CatalogRow.WellFormed (w : Width) (r : CatalogRow) : Prop :=
  FitsWidth w r.polynomial ∧ FitsWidth w r.initial ∧ FitsWidth w r.xorOut ∧ FitsWidth w r.check ∧
    FitsWidth w r.residue

/-- Well-formed parameters: ADDR is a 64-bit register of AW bits (R9, R24), every catalogue row is W bits wide (R10), and
memory holds only addresses of the space `0 .. 2^AW - 1` (R51). -/
abbrev Params.WellFormed (p : Params) : Prop :=
  (1 ≤ p.addrBits ∧ p.addrBits ≤ 64) ∧ (∀ r ∈ p.catalogue, r.WellFormed p.width) ∧
    (∀ g ∈ p.regions, g.hi ≤ 2 ^ p.addrBits)

end Sys2Proof
end

