-- ==== Sys2Proof/Decode.lean ====
section
/-! DEFINITION. Decoding the word written to CMD (spec/30_encoding.md R70 to R78), total on every 64-bit word and
refusing reserved words by name, and the encoder of R72, R80 and R81. -/

namespace Sys2Proof

/-- Why a word is no command. -/
inductive DecodeError where
  /-- The word is reserved (R75). -/
  | reservedCommand
deriving DecidableEq, Repr

/-- `n = 8 << NSEL` (R73). -/
def widthOfNsel (nsel : BitVec 2) : Width :=
  match nsel.toNat with
  | 0 => .w8
  | 1 => .w16
  | 2 => .w32
  | _ => .w64

/-- A one-bit field as the Boolean argument it gives (R74). -/
def flagBit (c : Word) (i : Nat) : Bool := c.getLsbD i

/-- `decode` of R78, in its order. -/
def decode (c : Word) : Except DecodeError Instr :=
  if c.extractLsb 63 32 ≠ 0 ∨ c.extractLsb 31 10 ≠ 0 then .error .reservedCommand
  else
    match (c.extractLsb 3 0).toNat with
    | 0x1 =>
      if c.extractLsb 9 6 ≠ 0 then .error .reservedCommand
      else .ok (.reflect (widthOfNsel (c.extractLsb 5 4)))
    | 0x2 =>
      if c.extractLsb 9 9 ≠ 0 ∨ c.extractLsb 7 6 ≠ 0 then .error .reservedCommand
      else .ok (.insert (widthOfNsel (c.extractLsb 5 4)) (flagBit c 8))
    | 0x3 => if c.extractLsb 8 4 ≠ 0 then .error .reservedCommand else .ok (.resolve (flagBit c 9))
    | 0x4 =>
      if c.extractLsb 9 8 ≠ 0 ∨ c.extractLsb 5 4 ≠ 0 then .error .reservedCommand
      else .ok (.calcPartial (flagBit c 6) (flagBit c 7))
    | 0x5 => if c.extractLsb 9 4 ≠ 0 then .error .reservedCommand else .ok .calculate
    | 0x6 => if c.extractLsb 9 4 ≠ 0 then .error .reservedCommand else .ok .calcAppend
    | 0x7 => if c.extractLsb 9 4 ≠ 0 then .error .reservedCommand else .ok .verify
    | 0x8 => if c.extractLsb 9 4 ≠ 0 then .error .reservedCommand else .ok .release
    | _ => .error .reservedCommand

/-- The NSEL code of a width (R73). -/
def nselOf : Width → Word
  | .w8 => 0
  | .w16 => 1
  | .w32 => 2
  | .w64 => 3

/-- A flag as a one-bit field at bit `i` (R74, R80). -/
def flagAt (b : Bool) (i : Nat) : Word := if b then (1 : Word) <<< i else 0

/-- The command word of a command, by the formulas of R80. -/
def encode : Instr → Word
  | .reflect n => 0x01 ||| nselOf n <<< 4
  | .insert n be => 0x02 ||| nselOf n <<< 4 ||| flagAt be 8
  | .resolve ct => 0x03 ||| flagAt ct 9
  | .calcPartial f l => 0x04 ||| flagAt f 6 ||| flagAt l 7
  | .calculate => 0x05
  | .calcAppend => 0x06
  | .verify => 0x07
  | .release => 0x08

/-- The word a host writes to CMD for an instruction whose low `nbits` bits are `w`, every bit above them 0 (R70). -/
def tableWord (nbits w : Nat) : Word := (BitVec.ofNat nbits w).setWidth 64

/-- What the decoder reads from an instruction numbered as spec/opcode_table.json numbers it. ECRC stores no command
word in memory: the host writes it to CMD as one word (R70), so there is no byte order to lay it out in. -/
def decodeTableWord (nbits w : Nat) : Option Instr :=
  match decode (tableWord nbits w) with
  | .ok i => some i
  | .error _ => none

end Sys2Proof
end

