-- ==== Sys2Proof/Machine/State.lean ====
section
/-! DEFINITION. The machine's state as plain data (spec/10_state.md R21 to R41), the faults of the model
(spec/60_exceptions.md R203), the actions of the host (spec/30_encoding.md R80, spec/20_memory.md R50, R64) and the state
after reset (spec/70_reset_and_hazards.md R220). -/

namespace Sys2Proof.Machine

/-- The lookup table: 256 entries, wholly present (R22, R35), each a W-bit value as a 64-bit word (R17). -/
abbrev Table := Vector Word 256

/-- The configuration context CFG (R21). POLY, INIT, XOROUT, CHECK and RESIDUE are W bits wide and held as 64-bit words
with zeros above bit W-1 (R17). -/
structure Cfg where
  /-- CFG.NAME: the stored name, `none` when absent. -/
  name : Option Name
  /-- CFG.POLY. -/
  poly : Word
  /-- CFG.INIT. -/
  init : Word
  /-- CFG.REFIN. -/
  refIn : Bool
  /-- CFG.REFOUT. -/
  refOut : Bool
  /-- CFG.XOROUT. -/
  xorOut : Word
  /-- CFG.CHECK. -/
  check : Word
  /-- CFG.RESIDUE. -/
  residue : Word
  /-- CFG.TABLE: the lookup table, `none` when absent. -/
  table : Option Table
deriving DecidableEq, Repr

/-- The empty configuration (R23). -/
def Cfg.empty : Cfg where
  name := none
  poly := 0
  init := 0
  refIn := false
  refOut := false
  xorOut := 0
  check := 0
  residue := 0
  table := none

/-- Memory (R41, R51) as a list of (address, byte) pairs in one canonical form: `Memory.wf`. -/
abbrev Memory := List Host.Cell

/-- The canonical form of memory: addresses strictly rising, and no entry equal to what an unlisted address reads as. -/
abbrev Memory.wf (m : Memory) : Prop :=
  m.Pairwise (fun c d => c.1 < d.1) ∧ ∀ c ∈ m, c.2 ≠ Config.unwrittenByte

/-- One action of the host (R50, R64, R80). The offset is the byte offset from ECRC's base address, and `bits` the width of
the access in bits (R24, R28). -/
inductive HostAction where
  /-- The host writes a register; at offset 0x000 this writes CMD and runs a command (WR and CMD of R80, R28, R29). -/
  | writeReg (offset : Nat) (bits : Nat) (value : Word)
  /-- The host reads a register (RD of R80, R28). -/
  | readReg (offset : Nat) (bits : Nat)
  /-- The host writes one byte of its memory (R41, R50). -/
  | store (addr : Nat) (value : Byte)
  /-- The host reads one byte of its memory (R41, R50). -/
  | load (addr : Nat)
  /-- The platform asserts reset, between two commands (R220, R221). -/
  | reset
deriving DecidableEq, Repr

/-- Everything the spec gives the machine, and the model's own fields (marked so). -/
structure State where
  /-- The parameters of the instance (R8 to R13, R55): no step changes them. -/
  params : Params
  /-- The configuration context CFG (R21). -/
  cfg : Cfg
  /-- Register A, 64 bits (R24). -/
  a : Word
  /-- Register B, 64 bits, of which [7:0] are used (R24). -/
  b : Word
  /-- Register ADDR: AW bits (R9, R24), as a 64-bit word with zeros above. -/
  addr : Word
  /-- Register LEN, 64 bits (R24). -/
  len : Word
  /-- Register DLEN, 64 bits (R24). -/
  dlen : Word
  /-- Register RES, 64 bits (R24, R25). -/
  res : Word
  /-- STATUS.VERIFY_OK (R26); the other bits of STATUS are derived from CFG or are 0. -/
  verifyOk : Bool
  /-- Memory, owned by the host (R41). -/
  mem : Memory
  /-- The host's program: its list of actions (R40, R80). -/
  program : List HostAction
  /-- The index of the next host action in that list (R40). -/
  pos : Nat
  /-- THE MODEL'S OWN (log entry 7): the word the host's last read returned, `none` before the first. -/
  lastRead : Option Word
  /-- THE MODEL'S OWN (log entry 1): how many allocation draws have been taken. -/
  draws : Nat
deriving DecidableEq, Repr

/-- The machine's faults: the closed set of R203, and the stuck case of R55. -/
inductive Fault where
  /-- Decode raises it on a reserved command word (R75, R78). SAFE: the model refuses what an implementation might do. -/
  | reservedCommand
  /-- A host register access raises it: outside the map, of the wrong width or direction (R28). SAFE, for the same reason. -/
  | badRegisterAccess
  /-- INSERT, CALCULATE, CALC_APPEND and VERIFY raise it: a range past address 2^AW - 1 (R54). SAFE. -/
  | rangeWrap
  /-- RESOLVE raises it: the name reaches the top of the address space with no 0x00 byte (R54, R113). SAFE. -/
  | unterminatedName
  /-- The stuck case of R55 and R203: an access to an address that memory does not admit; the machine has no step. Raised
  by every operation that reads or writes a byte of memory. SAFE: the model stops. -/
  | notAdmitted
deriving DecidableEq, Repr

/-- The machine's refusals. -/
inductive Refusal where
  /-- An instruction that has no meaning yet, by its mnemonic. Raised by a refused arm of `exec` only; every command has its
  meaning, so no arm raises it. SAFE: the model stops. -/
  | notModelled (mnemonic : String)
deriving DecidableEq, Repr

/-- The outcome of a step of this machine. -/
abbrev Outcome := Host.Outcome State Fault Refusal

/-- The state after reset of an instance built with `p` (R220): the empty configuration, every register 0, VERIFY_OK 0.
Memory lists nothing, no host program is loaded, nothing was read and no draw was taken (log entries 2, 4, 7 and 1). -/
def State.resetWith (p : Params) : State where
  params := p
  cfg := Cfg.empty
  a := 0
  b := 0
  addr := 0
  len := 0
  dlen := 0
  res := 0
  verifyOk := false
  mem := []
  program := []
  pos := 0
  lastRead := none
  draws := 0

/-- The machine right after reset (R220), with the default parameters (log entry 3). -/
def State.reset : State := State.resetWith Config.defaultParams

end Sys2Proof.Machine
end

