-- ==== Sys2Proof/Machine/Ops.lean ====
section
/-! DEFINITION. The named operations: one update per field of the state, memory byte by byte (spec/20_memory.md R51 to R57,
R61), ending a step with a fault (spec/00_scope.md R16, spec/60_exceptions.md R203), and the allocation draw
(spec/00_scope.md R11).

ECRC takes no exception and returns from none (R200, R207, R208): there is no saved pc, no saved status, no vector and no mode
to write. What stands in that place is `raise`: a model fault ends the step and writes nothing (R203). -/

namespace Sys2Proof.Machine

/-- `raise Fault(kind)` (R16): the step ends with the fault, and no state is written (R203, R207). -/
def raise (f : Fault) : Outcome := .fault f

/-- Ends a command whose effect is computed under possible faults: its state, or the fault that stopped it. -/
def settle : Except Fault State → Outcome
  | .ok t => .next t
  | .error f => raise f

/-! Updates, one per field. -/

def State.setCfg (s : State) (c : Cfg) : State := { s with cfg := c }
def State.setA (s : State) (v : Word) : State := { s with a := v }
def State.setB (s : State) (v : Word) : State := { s with b := v }
def State.setAddr (s : State) (v : Word) : State := { s with addr := v }
def State.setLen (s : State) (v : Word) : State := { s with len := v }
def State.setDlen (s : State) (v : Word) : State := { s with dlen := v }
def State.setRes (s : State) (v : Word) : State := { s with res := v }
def State.setVerifyOk (s : State) (v : Bool) : State := { s with verifyOk := v }
def State.setMem (s : State) (m : Memory) : State := { s with mem := m }
def State.setProgram (s : State) (p : List HostAction) : State := { s with program := p }
def State.setLastRead (s : State) (v : Word) : State := { s with lastRead := some v }

/-- The host goes on to its next action (R40). -/
def State.advance (s : State) : State := { s with pos := s.pos + 1 }

/-- One draw of `allocOk` has been taken (R11). -/
def State.countDraw (s : State) : State := { s with draws := s.draws + 1 }

/-- The draw `allocOk` that the next RESOLVE CT with a match takes (R11): a free value (log entry 1). -/
def State.allocOk (s : State) : Bool := Config.allocOk s.draws

/-! Memory. -/

/-- The number of addresses, 2^AW (R51). -/
def State.space (s : State) : Nat := 2 ^ s.params.addrBits

/-- `admits(a)` (R55): the address exists (R51) and memory holds a byte there. -/
def State.admits (s : State) (a : Nat) : Bool :=
  decide (a < s.space) && s.params.regions.any (fun g => decide (g.lo ≤ a) && decide (a < g.hi))

/-- The byte at an address. -/
def Memory.get : Memory → Nat → Byte
  | [], _ => Config.unwrittenByte
  | c :: m, a => if c.1 = a then c.2 else Memory.get m a

/-- Memory with the byte `v` at address `a`, in canonical form. -/
def Memory.set : Memory → Nat → Byte → Memory
  | [], a, v => if v = Config.unwrittenByte then [] else [(a, v)]
  | c :: m, a, v =>
    if a < c.1 then (if v = Config.unwrittenByte then c :: m else (a, v) :: c :: m)
    else if a = c.1 then (if v = Config.unwrittenByte then m else (a, v) :: m)
    else c :: Memory.set m a v

/-- `MemRead(a, 1)` (R51); an address memory does not admit leaves the machine stuck (R55). -/
def readByte (s : State) (a : Nat) : Except Fault Byte :=
  if s.admits a then .ok (s.mem.get a) else .error .notAdmitted

/-- `MemWrite(a, 1, v)` (R51); an address memory does not admit leaves the machine stuck (R55). -/
def writeByte (s : State) (a : Nat) (v : Byte) : Except Fault State :=
  if s.admits a then .ok (s.setMem (s.mem.set a v)) else .error .notAdmitted

/-- The `k` bytes at `a`, `a+1`, ..., read in that order, each once (R56). -/
def readBytes (s : State) : Nat → Nat → Except Fault (List Byte)
  | _, 0 => .ok []
  | a, k + 1 =>
    match readByte s a with
    | .error f => .error f
    | .ok v =>
      match readBytes s (a + 1) k with
      | .error f => .error f
      | .ok vs => .ok (v :: vs)

/-- The bytes `vs` written at `a`, `a+1`, ..., in that order (R57). A byte that memory does not admit stops the whole
command, and nothing is written (R203). -/
def writeBytes (s : State) : Nat → List Byte → Except Fault State
  | _, [] => .ok s
  | a, v :: vs =>
    match writeByte s a v with
    | .error f => .error f
    | .ok t => writeBytes t (a + 1) vs

/-- `readName` (R113): the bytes from `a` up to the first 0x00. `k` is how many addresses are left below 2^AW. -/
def readNameFrom (s : State) : Nat → Nat → Except Fault Name
  | _, 0 => .error .unterminatedName
  | a, k + 1 =>
    match readByte s a with
    | .error f => .error f
    | .ok v =>
      if v = 0 then .ok []
      else
        match readNameFrom s (a + 1) k with
        | .error f => .error f
        | .ok vs => .ok (v :: vs)

/-- `readName(a)` (R113), over all addresses from `a` to the top of the address space (R54). -/
def readName (s : State) (a : Nat) : Except Fault Name := readNameFrom s a (s.space - a)

/-- The range check of R54 passes: `[base, base + k)` ends at or below 2^AW, without wrap-around. -/
def State.inSpace (s : State) (base k : Nat) : Bool := decide (base + k ≤ s.space)

end Sys2Proof.Machine
end

