-- ==== Sys2Proof/Machine/Operands.lean ====
section
/-! DEFINITION. Every operand form of the commands (spec/30_encoding.md R77, spec/00_scope.md R14, R17): widening, cutting
to width, and the operands the registers give. -/

namespace Sys2Proof.Machine

/-- `zext_64(v)` (R14). -/
def zext64 {n : Nat} (v : BitVec n) : Word := v.setWidth 64

/-- `trunc_n(v)` of a 64-bit word (R14). -/
def truncTo (n : Nat) (v : Word) : BitVec n := v.setWidth n

/-- `trunc_AW(v)`, as a 64-bit word with zeros above (R14, R24). -/
def State.truncAddr (s : State) (v : Word) : Word := BitVec.ofNat 64 (v.toNat % s.space)

/-- The instance width W in bits (R8). -/
abbrev State.w (s : State) : Nat := s.params.width.bits

/-- W/8 (R172, R174). -/
def State.wBytes (s : State) : Nat := s.params.width.bytes

/-- The value operand of REFLECT.n and INSERT.n: `trunc_n(A)` (R77). -/
def State.valueOperand (s : State) (n : Width) : BitVec n.bits := truncTo n.bits s.a

/-- The register operand of CALC_PARTIAL: `trunc_W(A)` (R77). -/
def State.registerOperand (s : State) : BitVec s.w := truncTo s.w s.a

/-- The byte operand of CALC_PARTIAL: `B[7:0]` (R77). -/
def State.byteOperand (s : State) : Byte := truncTo 8 s.b

/-- The name operand of RESOLVE: `trunc_AW(A)` (R77). -/
def State.nameAddr (s : State) : Nat := (s.truncAddr s.a).toNat

/-- The buffer operand: ADDR (R77). -/
def State.bufAddr (s : State) : Nat := s.addr.toNat

/-- The length operand: LEN, a 64-bit unsigned byte count (R77). -/
def State.bufLen (s : State) : Nat := s.len.toNat

/-- The data length operand: DLEN, a 64-bit unsigned byte count (R77). -/
def State.dataLen (s : State) : Nat := s.dlen.toNat

/-- `absent(a)` (R16, R53). -/
def absent (a : Nat) : Bool := a == 0

end Sys2Proof.Machine
end

