-- ==== Sys2Proof/Machine/Flags.lean ====
section
/-! DEFINITION. STATUS and CFG_FLAGS (spec/10_state.md R24, R26). ECRC has no condition codes (R34): the only status bits are
these, and VERIFY alone writes one of them, VERIFY_OK (R25, R26). -/

namespace Sys2Proof.Machine

/-- A Boolean as bit `i` of a word. -/
def bitAt (v : Bool) (i : Nat) : Word := if v then (1 : Word) <<< i else 0

/-- NAME_VALID: 1 exactly when CFG.NAME is not none (R26). -/
def Cfg.nameValid (c : Cfg) : Bool := c.name.isSome

/-- TABLE_VALID: 1 exactly when CFG.TABLE is present (R26). -/
def Cfg.tableValid (c : Cfg) : Bool := c.table.isSome

/-- STATUS (R26): bits 0, 1 and 2, and zeros above. -/
def State.status (s : State) : Word :=
  bitAt s.cfg.nameValid 0 ||| bitAt s.cfg.tableValid 1 ||| bitAt s.verifyOk 2

/-- CFG_FLAGS (R24): bit 0 is CFG.REFIN, bit 1 is CFG.REFOUT. -/
def Cfg.flagsWord (c : Cfg) : Word := bitAt c.refIn 0 ||| bitAt c.refOut 1

/-- What VERIFY writes: STATUS.VERIFY_OK, and RES with the verdict zero-extended (R174). -/
def State.setVerdict (s : State) (ok : Bool) : State := (s.setVerifyOk ok).setRes (bitAt ok 0)

end Sys2Proof.Machine
end

