-- ==== Sys2Proof/Machine/BitUtil.lean ====
section
/-! DEFINITION. The bit-reflection unit and the byte-insertion unit, and the commands REFLECT and INSERT
(spec/40_bit_utilities.md). -/

namespace Sys2Proof.Machine

/-- `reflect_n(v)` (R100): bit i of the result is bit n-1-i of v. -/
def reflect {n : Nat} (v : BitVec n) : BitVec n := v.reverse

/-- Byte `i` of a value, counted from the least significant: `v[8*i+7 : 8*i]` (R103). -/
def byteOf {n : Nat} (v : BitVec n) (i : Nat) : Byte := v.extractLsb' (8 * i) 8

/-- The bytes that `insertBytes` stores for an n-bit value, at ascending addresses (R103): most significant first
when `be` is 1, least significant first when it is 0. -/
def bytesOf {n : Nat} (v : BitVec n) (be : Bool) : List Byte :=
  (List.range (n / 8)).map fun i => byteOf v (if be then n / 8 - 1 - i else i)

/-- `insertBytes(p, v, n, be)` (R103). -/
def insertBytes {n : Nat} (s : State) (p : Nat) (v : BitVec n) (be : Bool) : Except Fault State :=
  writeBytes s p (bytesOf v be)

/-- REFLECT.n (R101): `RES <- zext_64(reflect_n(trunc_n(A)))`. -/
def execReflect (n : Width) (s : State) : Outcome :=
  .next (s.setRes (zext64 (reflect (s.valueOperand n))))

/-- INSERT.n (R104): the guard, then the range check (R204), then the bytes. -/
def execInsert (n : Width) (bigEndian : Bool) (s : State) : Outcome :=
  if absent s.bufAddr ∨ s.bufLen < n.bytes then .next s
  else if s.inSpace s.bufAddr n.bytes then settle (insertBytes s s.bufAddr (s.valueOperand n) bigEndian)
  else raise .rangeWrap

end Sys2Proof.Machine
end

