-- ==== Sys2Proof/Machine/Kernel.lean ====
section
/-! DEFINITION. The CRC kernel: the polynomial shift-and-XOR datapath, the lookup-table datapath, the dispatch between them,
the fold over a message, and the command CALC_PARTIAL (spec/42_kernel.md; spec/44_whole_buffer.md R170, R171). The datapath is
written once for every width: its values are `BitVec n`, so each shift cuts to width as R15 says. -/

namespace Sys2Proof.Machine

/-- The CFG fields the datapath reads, cut to the width of the datapath (R130 to R138). -/
structure Datapath (n : Nat) where
  poly : BitVec n
  xorOut : BitVec n
  refIn : Bool
  refOut : Bool
deriving DecidableEq, Repr

/-- The datapath fields of CFG at width n. -/
def Cfg.datapath (c : Cfg) (n : Nat) : Datapath n where
  poly := truncTo n c.poly
  xorOut := truncTo n c.xorOut
  refIn := c.refIn
  refOut := c.refOut

/-- `fold(r, b)` (R130). -/
def foldByte {n : Nat} (k : Datapath n) (r : BitVec n) (b : Byte) : BitVec n :=
  r ^^^ ((if k.refIn then reflect b else b).setWidth n <<< (n - 8))

/-- `shiftStep(r)` (R131). -/
def shiftStep {n : Nat} (k : Datapath n) (r : BitVec n) : BitVec n :=
  if r.getLsbD (n - 1) then (r <<< 1) ^^^ k.poly else r <<< 1

/-- `divide8(r)` (R132): shiftStep, exactly eight times. -/
def divide8 {n : Nat} (k : Datapath n) (r : BitVec n) : BitVec n := (shiftStep k)^[8] r

/-- `finalizeBitwise(r)` (R133): the XOR comes before the reflection. -/
def finalizeBitwise {n : Nat} (k : Datapath n) (r : BitVec n) : BitVec n :=
  if k.refOut then reflect (r ^^^ k.xorOut) else r ^^^ k.xorOut

/-- `bitwisePartial(r, b, first, last)` (R134): `first` has no effect. -/
def bitwisePartial {n : Nat} (k : Datapath n) (r : BitVec n) (b : Byte) (_first last : Bool) : BitVec n :=
  if last then finalizeBitwise k (divide8 k (foldByte k r b)) else divide8 k (foldByte k r b)

/-- `tableStepReflected(r, b, first)` (R135), over the table as a function of its index. -/
def tableStepReflected {n : Nat} (tbl : Byte → BitVec n) (r : BitVec n) (b : Byte) (first : Bool) : BitVec n :=
  let r1 := if first then reflect r else r
  (r1 >>> 8) ^^^ tbl ((r1 ^^^ b.setWidth n).setWidth 8)

/-- `tableStepNormal(r, b)` (R136). -/
def tableStepNormal {n : Nat} (tbl : Byte → BitVec n) (r : BitVec n) (b : Byte) : BitVec n :=
  (r <<< 8) ^^^ tbl (((r >>> (n - 8)) ^^^ b.setWidth n).setWidth 8)

/-- `tablePartial(r, b, first, last)` (R138): no output reflection, whatever CFG.REFOUT is. -/
def tablePartial {n : Nat} (k : Datapath n) (tbl : Byte → BitVec n) (r : BitVec n) (b : Byte) (first last : Bool) :
    BitVec n :=
  let t := if k.refIn then tableStepReflected tbl r b first else tableStepNormal tbl r b
  if last then t ^^^ k.xorOut else t

/-- `kernel(r, b, first, last)` (R137): the table path when a table is present, the bitwise path when not. -/
def kernel {n : Nat} (k : Datapath n) (tbl : Option (Byte → BitVec n)) (r : BitVec n) (b : Byte) (first last : Bool) :
    BitVec n :=
  match tbl with
  | some t => tablePartial k t r b first last
  | none => bitwisePartial k r b first last

/-- The kernel over the bytes of a message, from the register `r`: `first` on the first byte if `first` is true, `last` on the
last byte (R56, R170). -/
def foldMessage {n : Nat} (k : Datapath n) (tbl : Option (Byte → BitVec n)) : Bool → BitVec n → List Byte → BitVec n
  | _, r, [] => r
  | first, r, b :: bs => foldMessage k tbl false (kernel k tbl r b first bs.isEmpty) bs

/-- An entry of the table at width n (R135, R136): `CFG.TABLE[i]`. -/
def Table.entry (t : Table) (n : Nat) (i : Byte) : BitVec n := truncTo n t[i.toNat]

/-- CFG.TABLE as the datapath reads it, `none` when it is absent (R137). -/
def Cfg.lookup (c : Cfg) (n : Nat) : Option (Byte → BitVec n) := c.table.map fun t => t.entry n

/-- The kernel under the state's CFG at the instance width (R137). -/
def State.kernel (s : State) (r : BitVec s.w) (b : Byte) (first last : Bool) : BitVec s.w :=
  Machine.kernel (s.cfg.datapath s.w) (s.cfg.lookup s.w) r b first last

/-- `zeroLength()` (R171): by the policy, and by the bitwise finalization in both modes. -/
def zeroLength {n : Nat} (p : ZeroLenPolicy) (k : Datapath n) (init : BitVec n) : BitVec n :=
  match p with
  | .finalize => finalizeBitwise k init
  | .raw => init

/-- The CRC of a message under the state's CFG (R170, R171): `zeroLength()` for no bytes, else the fold from CFG.INIT. -/
def State.crc (s : State) (msg : List Byte) : BitVec s.w :=
  match msg with
  | [] => zeroLength s.params.zeroLen (s.cfg.datapath s.w) (truncTo s.w s.cfg.init)
  | b :: bs => foldMessage (s.cfg.datapath s.w) (s.cfg.lookup s.w) true (truncTo s.w s.cfg.init) (b :: bs)

/-- CALC_PARTIAL (R139): `RES <- zext_64(kernel(trunc_W(A), B[7:0], FIRST, LAST))`. -/
def execCalcPartial (first last : Bool) (s : State) : Outcome :=
  .next (s.setRes (zext64 (s.kernel s.registerOperand s.byteOperand first last)))

end Sys2Proof.Machine
end

