-- ==== Sys2Proof/Machine/Buffer.lean ====
section
/-! DEFINITION. The whole-buffer commands CALCULATE, CALC_APPEND and VERIFY over their shared helper `calc`
(spec/44_whole_buffer.md). -/

namespace Sys2Proof.Machine

/-- `calc(base, len)` (R170): absent data gives 0; no bytes give `zeroLength()`; a range past the top faults; else the CRC of
the bytes in memory. -/
def calcBuffer (s : State) (base len : Nat) : Except Fault (BitVec s.w) :=
  if absent base then .ok 0
  else if len = 0 then .ok (s.crc [])
  else if s.inSpace base len then
    match readBytes s base len with
    | .error f => .error f
    | .ok msg => .ok (s.crc msg)
  else .error .rangeWrap

/-- CALCULATE (R170): `RES <- zext_64(calc(ADDR, LEN))`. -/
def execCalculate (s : State) : Outcome :=
  match calcBuffer s s.bufAddr s.bufLen with
  | .error f => raise f
  | .ok r => .next (s.setRes (zext64 r))

/-- CALC_APPEND (R172): the guard on unbounded integers, the range check, then the checksum in the byte order of
CFG.REFOUT (R173). -/
def execCalcAppend (s : State) : Outcome :=
  if absent s.bufAddr ∨ s.bufLen < s.dataLen + s.wBytes then .next s
  else if s.inSpace s.bufAddr (s.dataLen + s.wBytes) then
    match calcBuffer s s.bufAddr s.dataLen with
    | .error f => raise f
    | .ok crc => settle (insertBytes s (s.bufAddr + s.dataLen) crc (!s.cfg.refOut))
  else raise .rangeWrap

/-- VERIFY (R174): the verdict is 0 for an absent or short buffer (R177), else whether `calc ^ XOROUT` is RESIDUE. -/
def execVerify (s : State) : Outcome :=
  if absent s.bufAddr ∨ s.bufLen < s.wBytes then .next (s.setVerdict false)
  else
    match calcBuffer s s.bufAddr s.bufLen with
    | .error f => raise f
    | .ok r => .next (s.setVerdict ((r ^^^ truncTo s.w s.cfg.xorOut) == truncTo s.w s.cfg.residue))

end Sys2Proof.Machine
end

