-- ==== Sys2Proof/Machine/Lifecycle.lean ====
section
/-! DEFINITION. RELEASE and the body it shares with RESOLVE (spec/45_lifecycle.md). -/

namespace Sys2Proof.Machine

/-- `releaseContext()` (R190): CFG becomes the empty configuration. -/
def releaseContext (s : State) : State := s.setCfg Cfg.empty

/-- RELEASE (R190): accesses no memory, and keeps RES, VERIFY_OK and the operand registers. -/
def execRelease (s : State) : Outcome := .next (releaseContext s)

end Sys2Proof.Machine
end

