-- ==== Sys2Proof/Machine/TableGen.lean ====
section
/-! DEFINITION. The table generator (spec/43_table_generator.md): `buildTable`, which runs inside RESOLVE only. -/

namespace Sys2Proof.Machine

/-- Entry i of the table (R160): the bitwise kernel from register 0 on byte i, `first` and `last` both true, XORed with
CFG.XOROUT. The bitwise path is used directly, never the dispatch. -/
def tableEntry {n : Nat} (k : Datapath n) (i : Byte) : BitVec n := bitwisePartial k 0 i true true ^^^ k.xorOut

/-- `buildTable(CFG)` (R160): all 256 entries, each zero-extended to a 64-bit word (R17). -/
def buildTable {n : Nat} (k : Datapath n) : Table :=
  ⟨((List.range 256).map fun i => zext64 (tableEntry k (BitVec.ofNat 8 i))).toArray, by simp⟩

/-- CFG with the whole table built from the fields it holds (R118, R160), stored in one step (R22). -/
def Cfg.withTable (c : Cfg) (n : Nat) : Cfg := { c with table := some (buildTable (c.datapath n)) }

end Sys2Proof.Machine
end

