-- ==== Sys2Proof/Machine/Resolver.lean ====
section
/-! DEFINITION. RESOLVE: the name lookup, the copy of the row, and the table build under the allocation draw
(spec/41_resolver.md). -/

namespace Sys2Proof.Machine

/-- `matches(row, s)` (R114): the primary name or one of the aliases, byte for byte. -/
def rowMatches (row : CatalogRow) (nm : Name) : Bool := row.primaryName == nm || row.aliases.any (· == nm)

/-- The first row of the catalogue that matches (R114, R121). -/
def findRow (cat : List CatalogRow) (nm : Name) : Option CatalogRow := cat.find? fun row => rowMatches row nm

/-- The configuration copied from a row, under the query string as its name, with no table yet (R110, R116). -/
def Cfg.ofRow (row : CatalogRow) (nm : Name) : Cfg where
  name := some nm
  poly := row.polynomial
  init := row.initial
  refIn := row.reflectIn
  refOut := row.reflectOut
  xorOut := row.xorOut
  check := row.check
  residue := row.residue
  table := none

/-- The table build of RESOLVE CT (R118): the draw is taken, and the table is built if the storage could be had. -/
def buildUnderDraw (s : State) : State :=
  if s.allocOk then s.countDraw.setCfg (s.cfg.withTable s.w) else s.countDraw

/-- What RESOLVE does once the context is released and the name is `nm` (R110, R115 to R118). -/
def loadByName (createTable : Bool) (nm : Name) (s : State) : State :=
  match findRow s.params.catalogue nm with
  | none => s
  | some row =>
    if createTable then buildUnderDraw (s.setCfg (Cfg.ofRow row nm)) else s.setCfg (Cfg.ofRow row nm)

/-- RESOLVE (R110): the name is read first (R111), then the context is released, then the row is loaded. -/
def execResolve (createTable : Bool) (s : State) : Outcome :=
  if absent s.nameAddr then .next (releaseContext s)
  else
    match readName s s.nameAddr with
    | .error f => raise f
    | .ok nm => .next (loadByName createTable nm (releaseContext s))

end Sys2Proof.Machine
end

