-- ==== Sys2Proof/Machine/Dispatch.lean ====
section
/-! DEFINITION. The meaning of each command, one arm per row of the opcode table (spec/30_encoding.md R71). -/

namespace Sys2Proof.Machine

def exec (i : Instr) (s : State) : Host.Outcome State Fault Refusal :=
  match i with
  | .reflect n => Sys2Proof.Machine.execReflect n s
  | .insert n bigEndian => Sys2Proof.Machine.execInsert n bigEndian s
  | .resolve createTable => Sys2Proof.Machine.execResolve createTable s
  | .calcPartial first last => Sys2Proof.Machine.execCalcPartial first last s
  | .calculate => Sys2Proof.Machine.execCalculate s
  | .calcAppend => Sys2Proof.Machine.execCalcAppend s
  | .verify => Sys2Proof.Machine.execVerify s
  | .release => Sys2Proof.Machine.execRelease s

end Sys2Proof.Machine
end

