-- ==== Sys2Proof/Machine/HostAccess.lean ====
section
/-! DEFINITION. The host's side: the register map and its access rules (spec/10_state.md R24 to R29), the host's own
memory accesses (spec/20_memory.md R50, R64), and reset (spec/70_reset_and_hazards.md R220, R221). -/

namespace Sys2Proof.Machine

/-- The registers of the map (R24). -/
inductive Reg where
  | cmd
  | a
  | b
  | addr
  | len
  | dlen
  | res
  | status
  | cfgPoly
  | cfgInit
  | cfgXorOut
  | cfgCheck
  | cfgResidue
  | cfgFlags
  | cfgWidth
  /-- TABLE_VIEW[i]. -/
  | tableView (i : Byte)
deriving DecidableEq, Repr

/-- The named registers and their byte offsets (R24). -/
def regMap : List (Nat × Reg) :=
  [ (0x000, .cmd), (0x008, .a), (0x010, .b), (0x018, .addr), (0x020, .len), (0x028, .dlen), (0x030, .res),
    (0x038, .status), (0x040, .cfgPoly), (0x048, .cfgInit), (0x050, .cfgXorOut), (0x058, .cfgCheck),
    (0x060, .cfgResidue), (0x068, .cfgFlags), (0x070, .cfgWidth) ]

/-- The register at an offset, if any (R24): a named one, or TABLE_VIEW[i] at 0x800 + 8*i for i = 0..255. -/
def regAt (offset : Nat) : Option Reg :=
  if 0x800 ≤ offset then
    if offset < 0x1000 ∧ offset % 8 = 0 then some (.tableView (BitVec.ofNat 8 ((offset - 0x800) / 8))) else none
  else regMap.lookup offset

/-- The register an access names: whole 64-bit accesses at a listed offset only (R28). -/
def selectReg (offset bits : Nat) : Except Fault Reg :=
  if bits = 64 then
    match regAt offset with
    | some r => .ok r
    | none => .error .badRegisterAccess
  else .error .badRegisterAccess

/-- TABLE_VIEW[i] (R24): the entry if the table is present, else 0. -/
def State.tableView (s : State) (i : Byte) : Word :=
  match s.cfg.table with
  | some t => t[i.toNat]
  | none => 0

/-- What a host read of a register returns (R24, R28); CMD is write-only (R29). -/
def readRegister (s : State) : Reg → Except Fault Word
  | .cmd => .error .badRegisterAccess
  | .a => .ok s.a
  | .b => .ok s.b
  | .addr => .ok s.addr
  | .len => .ok s.len
  | .dlen => .ok s.dlen
  | .res => .ok s.res
  | .status => .ok s.status
  | .cfgPoly => .ok s.cfg.poly
  | .cfgInit => .ok s.cfg.init
  | .cfgXorOut => .ok s.cfg.xorOut
  | .cfgCheck => .ok s.cfg.check
  | .cfgResidue => .ok s.cfg.residue
  | .cfgFlags => .ok s.cfg.flagsWord
  | .cfgWidth => .ok (BitVec.ofNat 64 s.w)
  | .tableView i => .ok (s.tableView i)

/-- A host write of a register (R24, R27, R28). A write of CMD runs the command word at once, by `run` (R29); a write of a
read-only register is outside the interface. -/
def writeRegister (run : Word → State → Outcome) (r : Reg) (v : Word) (s : State) : Outcome :=
  match r with
  | .cmd => run v s
  | .a => .next (s.setA v)
  | .b => .next (s.setB v)
  | .addr => .next (s.setAddr (s.truncAddr v))
  | .len => .next (s.setLen v)
  | .dlen => .next (s.setDlen v)
  | .res => raise .badRegisterAccess
  | .status => raise .badRegisterAccess
  | .cfgPoly => raise .badRegisterAccess
  | .cfgInit => raise .badRegisterAccess
  | .cfgXorOut => raise .badRegisterAccess
  | .cfgCheck => raise .badRegisterAccess
  | .cfgResidue => raise .badRegisterAccess
  | .cfgFlags => raise .badRegisterAccess
  | .cfgWidth => raise .badRegisterAccess
  | .tableView _ => raise .badRegisterAccess

/-- The host's write of a register at an offset. -/
def hostWriteReg (run : Word → State → Outcome) (offset bits : Nat) (v : Word) (s : State) : Outcome :=
  match selectReg offset bits with
  | .error f => raise f
  | .ok r => writeRegister run r v s

/-- The host's read of a register at an offset: an observation, which changes no state of ECRC (R28, R80). -/
def hostReadReg (offset bits : Nat) (s : State) : Outcome :=
  match selectReg offset bits with
  | .error f => raise f
  | .ok r =>
    match readRegister s r with
    | .error f => raise f
    | .ok v => .next (s.setLastRead v)

/-- The host writes a byte of its memory (R41, R50, R64). -/
def hostStore (a : Nat) (v : Byte) (s : State) : Outcome := settle (writeByte s a v)

/-- The host reads a byte of its memory (R41, R50, R64). -/
def hostLoad (a : Nat) (s : State) : Outcome :=
  match readByte s a with
  | .error f => raise f
  | .ok v => .next (s.setLastRead (zext64 v))

/-- Reset while the host's program runs (R220, R221): ECRC's state as after reset; memory, the parameters and the host's own
position are not ECRC's state, and reset does not touch them. -/
def resetEcrc (s : State) : State :=
  { s with
    cfg := Cfg.empty
    a := 0
    b := 0
    addr := 0
    len := 0
    dlen := 0
    res := 0
    verifyOk := false }

/-- One action of the host. -/
def hostAct (run : Word → State → Outcome) (act : HostAction) (s : State) : Outcome :=
  match act with
  | .writeReg offset bits v => hostWriteReg run offset bits v s
  | .readReg offset bits => hostReadReg offset bits s
  | .store a v => hostStore a v s
  | .load a => hostLoad a s
  | .reset => .next (resetEcrc s)

/-- The next action of the host's program, if there is one (R40). -/
def State.nextAction (s : State) : Option HostAction := s.program[s.pos]?

/-- One step of the host (R40, R64): its next action, after which the next one is due. With no action left ECRC waits, and
nothing changes (R214, R221, R232). -/
def hostStep (run : Word → State → Outcome) (s : State) : Outcome :=
  match s.nextAction with
  | none => .next s
  | some act => hostAct run act s.advance

/-- A host program with `act` as the action at index `i`. Indices below `i` that the program does not reach are filled
with reads of A, which change nothing of ECRC (log entry 5). -/
def placeAction (p : List HostAction) (i : Nat) (act : HostAction) : List HostAction :=
  p.take i ++ List.replicate (i - p.length) (.readReg 0x008 64) ++ act :: p.drop (i + 1)

end Sys2Proof.Machine
end

