-- ==== Sys2Proof/Machine/Step.lean ====
section
/-! DEFINITION. One step of the machine: the next action of the host (spec/10_state.md R40), which runs one command when it
writes CMD (R29). -/

namespace Sys2Proof.Machine

/-- A write of `c` to CMD: the command it encodes runs to completion (R29), a reserved word faults (R75). -/
def runCommand (c : Word) (s : State) : Outcome :=
  match decode c with
  | .ok i => exec i s
  | .error .reservedCommand => raise .reservedCommand

/-- One step: one action of the host. -/
def step (s : State) : Host.Outcome State Fault Refusal := hostStep runCommand s

/-- `s` with the host's next action a 64-bit write of the given command word to CMD, at offset 0x000 (R70, R80). -/
def State.withFetchWord (s : State) (nbits w : Nat) : State :=
  s.setProgram (placeAction s.program s.pos (.writeReg 0x000 64 (tableWord nbits w)))

end Sys2Proof.Machine
end

