-- ==== Sys2Proof/Safety.lean ====
section
/-! DEFINITION. What claims are stated in: the invariant of the machine (spec/10_state.md R30, R17, R24), the agreement
condition (spec/42_kernel.md R144), and what memory holds. A step that faults is never a normal end (spec/60_exceptions.md R203):
it answers no next state. -/

namespace Sys2Proof.Machine

/-- The W-bit fields of CFG and its table entries have zeros above bit W-1 (R17). -/
abbrev Cfg.Fits (w : Width) (c : Cfg) : Prop :=
  FitsWidth w c.poly ∧ FitsWidth w c.init ∧ FitsWidth w c.xorOut ∧ FitsWidth w c.check ∧ FitsWidth w c.residue ∧
    ∀ t ∈ c.table, ∀ i : Fin 256, FitsWidth w t[i]

/-- The configuration invariant of R30: (a) a table only under a name, (b) a present table is `buildTable` of the fields held
now, (c) without a name every field is 0. -/
abbrev Cfg.Consistent (w : Width) (c : Cfg) : Prop :=
  (c.table.isSome → c.name.isSome) ∧
  (c.table = none ∨ c.table = some (buildTable (c.datapath w.bits))) ∧
  (c.name = none →
    c.poly = 0 ∧ c.init = 0 ∧ c.xorOut = 0 ∧ c.check = 0 ∧ c.residue = 0 ∧ c.refIn = false ∧ c.refOut = false)

/-- The invariant of the machine: well-formed parameters (R8 to R10), W-bit quantities in form (R17), the configuration invariant
(R30), ADDR an AW-bit value (R24), and memory in canonical form. -/
abbrev State.Inv (s : State) : Prop :=
  s.params.WellFormed ∧ s.cfg.Fits s.params.width ∧ s.cfg.Consistent s.params.width ∧ s.addr.toNat < s.space ∧
    s.mem.wf

/-- AGREE(CFG) of R144. -/
abbrev Datapath.Agree {n : Nat} (k : Datapath n) : Prop :=
  k.refIn = k.refOut ∧ (k.refIn = false ∨ reflect k.xorOut = k.xorOut)

/-- Memory admits every address of `[a, a + k)` (R55). -/
abbrev State.AdmitsRange (s : State) (a k : Nat) : Prop := ∀ i < k, s.admits (a + i) = true

/-- The bytes memory holds at `a`, `a+1`, ..., `a+k-1`. -/
def State.bytesAt (s : State) (a k : Nat) : List Byte := (List.range k).map fun i => s.mem.get (a + i)

/-- Memory holds the name `nm` at `a`: its bytes, none of them 0x00, and then a 0x00 byte, all admitted (R113). -/
abbrev State.NameAt (s : State) (a : Nat) (nm : Name) : Prop :=
  s.AdmitsRange a (nm.length + 1) ∧ s.bytesAt a nm.length = nm ∧ (∀ v ∈ nm, v ≠ 0) ∧ s.mem.get (a + nm.length) = 0

/-- The addresses a command reads, by the table of R52; none when its guard fails. -/
abbrev State.Reads (s : State) (i : Instr) (x : Nat) : Prop :=
  match i with
  | .reflect _ => False
  | .insert _ _ => False
  | .resolve _ => s.nameAddr ≠ 0 ∧ ∃ nm, s.NameAt s.nameAddr nm ∧ s.nameAddr ≤ x ∧ x ≤ s.nameAddr + nm.length
  | .calcPartial _ _ => False
  | .calculate => s.addr ≠ 0 ∧ s.addr.toNat ≤ x ∧ x < s.addr.toNat + s.len.toNat
  | .calcAppend =>
    (s.addr ≠ 0 ∧ s.dlen.toNat + s.params.width.bits / 8 ≤ s.len.toNat) ∧ s.addr.toNat ≤ x ∧ x < s.addr.toNat + s.dlen.toNat
  | .verify =>
    (s.addr ≠ 0 ∧ s.params.width.bits / 8 ≤ s.len.toNat) ∧ s.addr.toNat ≤ x ∧ x < s.addr.toNat + s.len.toNat
  | .release => False

/-- The addresses a command stores to, by the table of R52; none when its guard fails. -/
abbrev State.Stores (s : State) (i : Instr) (x : Nat) : Prop :=
  match i with
  | .reflect _ => False
  | .insert n _ =>
    (s.addr ≠ 0 ∧ n.bits / 8 ≤ s.len.toNat) ∧ s.addr.toNat ≤ x ∧ x < s.addr.toNat + n.bits / 8
  | .resolve _ => False
  | .calcPartial _ _ => False
  | .calculate => False
  | .calcAppend =>
    (s.addr ≠ 0 ∧ s.dlen.toNat + s.params.width.bits / 8 ≤ s.len.toNat) ∧ s.addr.toNat + s.dlen.toNat ≤ x ∧
      x < s.addr.toNat + s.dlen.toNat + s.params.width.bits / 8
  | .verify => False
  | .release => False

/-- A reserved command word, by the four cases of R75; the fields and the opcodes that use them are those of R70. -/
abbrev ReservedWord (c : Word) : Prop :=
  (c.extractLsb 3 0 = 0 ∨ 9 ≤ (c.extractLsb 3 0).toNat) ∨ c.extractLsb 31 10 ≠ 0 ∨ c.extractLsb 63 32 ≠ 0 ∨
    (c.extractLsb 5 4 ≠ 0 ∧ c.extractLsb 3 0 ≠ 1 ∧ c.extractLsb 3 0 ≠ 2) ∨
    (c.getLsbD 6 = true ∧ c.extractLsb 3 0 ≠ 4) ∨ (c.getLsbD 7 = true ∧ c.extractLsb 3 0 ≠ 4) ∨
    (c.getLsbD 8 = true ∧ c.extractLsb 3 0 ≠ 2) ∨ (c.getLsbD 9 = true ∧ c.extractLsb 3 0 ≠ 3)

/-- The loop of R170 over the bytes memory holds: `kernel(r, MemRead(base + i, 1), i = 0, i = len - 1)` for i in 0..len-1,
from CFG.INIT. -/
def State.loopCrc (s : State) (base len : Nat) : BitVec s.w :=
  (List.range len).foldl (fun r i => s.kernel r (s.mem.get (base + i)) (i == 0) (i == len - 1)) (truncTo s.w s.cfg.init)

/-- The stream protocol of R224: one CALC_PARTIAL per byte, with the byte in B, FIRST as given for the first byte and LAST on
the last one, and each RES written back into A. -/
def partialStream (first : Bool) (s : State) : List Byte → Outcome
  | [] => .next s
  | b :: bs =>
    match exec (.calcPartial first bs.isEmpty) (s.setB (zext64 b)) with
    | .next t => partialStream false (t.setA t.res) bs
    | .fault f => .fault f
    | .refused r => .refused r

/-- The CRC of a message in bitwise mode under ZERO_LEN_POLICY = Finalize (R170, R171). -/
def bitwiseCrc {n : Nat} (k : Datapath n) (init : BitVec n) (msg : List Byte) : BitVec n :=
  if msg = [] then finalizeBitwise k init else foldMessage k none true init msg

/-- A message followed by its own checksum, in the byte order CALC_APPEND writes it in (R172, R173). -/
def appended {n : Nat} (k : Datapath n) (init : BitVec n) (msg : List Byte) : List Byte :=
  msg ++ bytesOf (bitwiseCrc k init msg) (!k.refOut)

/-- The table a configuration's datapath would read, built from its own fields (R160), as a function of the index. -/
def builtTable {n : Nat} (k : Datapath n) : Byte → BitVec n := fun i => tableEntry k i

end Sys2Proof.Machine
end

