-- ==== Sys2Proof/Certificates/Slice0/Obligations.lean ====
section
/-! DEFINITION. The statements for the provers, in the order of spec/: the encoding, the host's register interface, reset, each
command, the datapaths and their agreement, and the rules of the whole machine. -/

open Sys2Proof Sys2Proof.Machine

/-! ## Encoding and the step (30_encoding.md, 10_state.md) -/

/-- A word decodes to a command exactly when it is that command's word: decoding and encoding agree both ways
(R72, R78, R80). -/
def Obligations.DecodeIffEncodedWord : Prop :=
  ∀ (c : Word) (i : Instr), decode c = .ok i ↔ c = encode i

/-- R72: a command word is the named command exactly when `(c & mask) = match`, and the field letters of the patterns stand
where the command's arguments come from. -/
def Obligations.DecodeFollowsMatchMaskTable : Prop :=
  ∀ c : Word, c.toNat < 2 ^ 32 →
    (∀ r ∈ commandTable, ((∃ i, decode c = .ok i ∧ i.mnemonic = r.mnemonic) ↔ r.matchesWord c = true)) ∧
    ∀ i, decode c = .ok i →
      match i with
      | .reflect n => n.bits = 8 * 2 ^ (c.extractLsb 5 4).toNat
      | .insert n be => n.bits = 8 * 2 ^ (c.extractLsb 5 4).toNat ∧ be = c.getLsbD 8
      | .resolve ct => ct = c.getLsbD 9
      | .calcPartial f l => f = c.getLsbD 6 ∧ l = c.getLsbD 7
      | .calculate => c = 0x005
      | .calcAppend => c = 0x006
      | .verify => c = 0x007
      | .release => c = 0x008

/-- R75: a write of a reserved word to CMD ends with the fault ReservedCommand; any other word is a command. -/
def Obligations.ReservedWordsFault : Prop :=
  ∀ (s : State) (c : Word), s.nextAction = some (.writeReg 0x000 64 c) →
    (ReservedWord c → step s = .fault .reservedCommand) ∧ (¬ ReservedWord c → ∃ i, decode c = .ok i)

/-- Some words of the table of R81, and two reserved ones, decode as the spec's encoding says. -/
def Obligations.SampleWordsDecode : Prop :=
  decode 0x021 = .ok (.reflect .w32) ∧ decode 0x112 = .ok (.insert .w16 true) ∧ decode 0x203 = .ok (.resolve true) ∧
    decode 0x044 = .ok (.calcPartial true false) ∧ decode 0x005 = .ok .calculate ∧ decode 0x006 = .ok .calcAppend ∧
    decode 0x007 = .ok .verify ∧ decode 0x008 = .ok .release ∧ decode 0x015 = .error .reservedCommand ∧
    decode 0x100000005 = .error .reservedCommand

/-- A write of a command word to CMD runs the command it decodes to, with the host's index moved on (R29, R40). -/
def Obligations.StepRunsDecodedCommand : Prop :=
  ∀ (s : State) (c : Word) (i : Instr), s.nextAction = some (.writeReg 0x000 64 c) → decode c = .ok i →
    i.wellFormed = true → step s = exec i { s with pos := s.pos + 1 }

/-- With no host action left, ECRC waits and nothing changes. THE MODEL'S CHOICE of what such a step is: log entry 6. -/
def Obligations.StepWaitsWithoutAction : Prop :=
  ∀ s : State, s.nextAction = none → step s = .next s

/-! ## Host register access (10_state.md) -/

/-- A 64-bit host write of A, B, ADDR, LEN or DLEN stores the word, ADDR its AW low bits, and nothing else changes but the host's
index (R24, R28). -/
def Obligations.HostWritesStoreOperands : Prop :=
  ∀ (s t : State) (off : Nat) (v : Word), s.nextAction = some (.writeReg off 64 v) →
    (off, t) ∈
      [ (0x008, { s with a := v, pos := s.pos + 1 }),
        (0x010, { s with b := v, pos := s.pos + 1 }),
        (0x018, { s with addr := BitVec.ofNat 64 (v.toNat % 2 ^ s.params.addrBits), pos := s.pos + 1 }),
        (0x020, { s with len := v, pos := s.pos + 1 }),
        (0x028, { s with dlen := v, pos := s.pos + 1 }) ] →
    step s = .next t

/-- A 64-bit host read of a readable register at its listed offset returns its value, and changes nothing but the host's index
and the word it holds (R24, R28; that the word is kept in a field of the state is the model's choice, log entry 7). -/
def Obligations.HostReadsReturnRegisters : Prop :=
  ∀ (s : State) (off : Nat), s.nextAction = some (.readReg off 64) →
    (∀ v : Word,
      (off, v) ∈
        [ (0x008, s.a), (0x010, s.b), (0x018, s.addr), (0x020, s.len), (0x028, s.dlen), (0x030, s.res),
          (0x038, s.status), (0x040, s.cfg.poly), (0x048, s.cfg.init), (0x050, s.cfg.xorOut), (0x058, s.cfg.check),
          (0x060, s.cfg.residue),
          (0x068, (if s.cfg.refIn then 1 else 0) + (if s.cfg.refOut then 2 else 0)),
          (0x070, BitVec.ofNat 64 s.params.width.bits) ] →
      step s = .next { s with pos := s.pos + 1, lastRead := some v }) ∧
    (∀ i : Fin 256, off = 0x800 + 8 * i.val →
      step s = .next
        { s with
          pos := s.pos + 1
          lastRead := some (match s.cfg.table with
            | some t => t[i]
            | none => 0) })

/-- Every other host access of a register is outside the interface and faults: a read of CMD, a write of a read-only
register, an offset that holds no register, a width other than 64 bits (R28). -/
def Obligations.HostAccessOutsideMapFaults : Prop :=
  ∀ (s : State) (off bits : Nat),
    (∀ v : Word, s.nextAction = some (.writeReg off bits v) →
      ¬ (bits = 64 ∧ off ∈ [0x000, 0x008, 0x010, 0x018, 0x020, 0x028]) → step s = .fault .badRegisterAccess) ∧
    (s.nextAction = some (.readReg off bits) →
      ¬ (bits = 64 ∧
        (off ∈ [0x008, 0x010, 0x018, 0x020, 0x028, 0x030, 0x038, 0x040, 0x048, 0x050, 0x058, 0x060, 0x068, 0x070] ∨
          ∃ i < 256, off = 0x800 + 8 * i)) → step s = .fault .badRegisterAccess)

/-- R27: the host can write only CMD, A, B, ADDR, LEN and DLEN; CFG, the table, RES and STATUS change only when a command
writes them (or by reset, which is no host write). -/
def Obligations.HostChangesNoResultRegister : Prop :=
  ∀ s t : State, step s = .next t →
    (∀ off bits v, s.nextAction = some (.writeReg off bits v) →
      off ∈ [0x000, 0x008, 0x010, 0x018, 0x020, 0x028]) ∧
    ((∀ bits c, s.nextAction ≠ some (.writeReg 0x000 bits c)) → s.nextAction ≠ some .reset →
      t.cfg = s.cfg ∧ t.res = s.res ∧ t.status = s.status)

/-- The bits of STATUS: NAME_VALID, TABLE_VALID, VERIFY_OK, and zeros above (R26). -/
def Obligations.StatusBits : Prop :=
  ∀ s : State, s.status.getLsbD 0 = s.cfg.name.isSome ∧ s.status.getLsbD 1 = s.cfg.table.isSome ∧
    s.status.getLsbD 2 = s.verifyOk ∧ ∀ i, 3 ≤ i → s.status.getLsbD i = false

/-- The host's own memory accesses: a store writes the byte and no other, a load returns it, and an address memory does not
admit leaves the machine stuck (R41, R51, R55). That the host's accesses are steps of the model is its choice: log entry 7. -/
def Obligations.HostMemoryAccess : Prop :=
  ∀ (s : State) (a : Nat) (v : Byte),
    (s.nextAction = some (.store a v) → s.admits a = true → s.mem.wf →
      ∃ t, step s = .next t ∧ t = { s with pos := s.pos + 1, mem := t.mem } ∧ t.mem.get a = v ∧
        ∀ x, x ≠ a → t.mem.get x = s.mem.get x) ∧
    (s.nextAction = some (.load a) → s.admits a = true →
      step s = .next { s with pos := s.pos + 1, lastRead := some ((s.mem.get a).setWidth 64) }) ∧
    (s.nextAction = some (.store a v) ∨ s.nextAction = some (.load a) → s.admits a = false →
      step s = .fault .notAdmitted)

/-! ## Reset (70_reset_and_hazards.md) -/

/-- R220: what reset leaves, at the start of an instance of any parameters, and when it is asserted in a run; memory and the
parameters, the catalogue among them, it does not touch. -/
def Obligations.ResetValues : Prop :=
  (∀ p : Params,
    let s := State.resetWith p
    s.params = p ∧
    s.cfg = { name := none, poly := 0, init := 0, refIn := false, refOut := false, xorOut := 0, check := 0, residue := 0,
              table := none } ∧
    s.a = 0 ∧ s.b = 0 ∧ s.addr = 0 ∧ s.len = 0 ∧ s.dlen = 0 ∧ s.res = 0 ∧ s.status = 0 ∧
    readRegister s .cfgWidth = .ok (BitVec.ofNat 64 p.width.bits)) ∧
  (∀ s : State, s.nextAction = some .reset →
    ∃ t, step s = .next t ∧ t.params = s.params ∧ t.mem = s.mem ∧ t.status = 0 ∧
      t.cfg = { name := none, poly := 0, init := 0, refIn := false, refOut := false, xorOut := 0, check := 0, residue := 0,
                table := none } ∧
      t.a = 0 ∧ t.b = 0 ∧ t.addr = 0 ∧ t.len = 0 ∧ t.dlen = 0 ∧ t.res = 0)

/-- After reset every readable register reads 0, except CFG_WIDTH, which reads W. -/
def Obligations.ResetRegistersRead : Prop :=
  ∀ (p : Params) (off : Nat),
    (off ∈ [0x008, 0x010, 0x018, 0x020, 0x028, 0x030, 0x038, 0x040, 0x048, 0x050, 0x058, 0x060, 0x068, 0x070] ∨
      ∃ i < 256, off = 0x800 + 8 * i) →
    ∃ t, step { State.resetWith p with program := [.readReg off 64] } = .next t ∧
      t.lastRead = some (if off = 0x070 then BitVec.ofNat 64 p.width.bits else 0)

/-! ## REFLECT and INSERT (40_bit_utilities.md) -/

/-- R101, R100: bit i of RES is bit n-1-i of A for i below n, the bits from n up are 0, and nothing else changes;
with the four words of REFLECT. -/
def Obligations.ReflectResult : Prop :=
  (decode 0x001 = .ok (.reflect .w8) ∧ decode 0x011 = .ok (.reflect .w16) ∧ decode 0x021 = .ok (.reflect .w32) ∧
    decode 0x031 = .ok (.reflect .w64)) ∧
  ∀ (n : Width) (s : State), ∃ t, exec (.reflect n) s = .next t ∧ t = { s with res := t.res } ∧
    ∀ i, t.res.getLsbD i = (decide (i < n.bits) && s.a.getLsbD (n.bits - 1 - i))

/-- R104, R103: the silent no-op of the guard, the range fault, the stuck case, and else n/8 bytes of A at ADDR in the order
BE selects, with every other byte and all other state as before; with the words of INSERT. -/
def Obligations.InsertStoresBytes : Prop :=
  (∀ (n : Width) (be : Bool), decode (0x002 ||| nselOf n <<< 4 ||| flagAt be 8) = .ok (.insert n be)) ∧
  ∀ (n : Width) (be : Bool) (s : State),
    (s.addr = 0 ∨ s.len.toNat < n.bits / 8 → exec (.insert n be) s = .next s) ∧
    (s.addr ≠ 0 → n.bits / 8 ≤ s.len.toNat → 2 ^ s.params.addrBits < s.addr.toNat + n.bits / 8 →
      exec (.insert n be) s = .fault .rangeWrap) ∧
    (s.addr ≠ 0 → n.bits / 8 ≤ s.len.toNat → s.addr.toNat + n.bits / 8 ≤ 2 ^ s.params.addrBits →
      ¬ s.AdmitsRange s.addr.toNat (n.bits / 8) → exec (.insert n be) s = .fault .notAdmitted) ∧
    (s.addr ≠ 0 → n.bits / 8 ≤ s.len.toNat → s.addr.toNat + n.bits / 8 ≤ 2 ^ s.params.addrBits →
      s.AdmitsRange s.addr.toNat (n.bits / 8) →
      ∃ t, exec (.insert n be) s = .next t ∧ t = { s with mem := t.mem } ∧
        (∀ x, x < s.addr.toNat ∨ s.addr.toNat + n.bits / 8 ≤ x → t.mem.get x = s.mem.get x) ∧
        (s.mem.wf → ∀ i < n.bits / 8,
          t.mem.get (s.addr.toNat + i) = s.a.extractLsb' (8 * (if be then n.bits / 8 - 1 - i else i)) 8))

/-! ## RESOLVE (41_resolver.md) -/

/-- R114, R116, R117, R118: the lowest row that matches is copied, the query string is the stored name, CT asks for a table
built from the copied fields, and one draw decides it; for either outcome of the draw. -/
def Obligations.ResolveLoadsFirstMatch : Prop :=
  ∀ (s : State) (ct : Bool) (nm : Name) (pre : List CatalogRow) (row : CatalogRow) (post : List CatalogRow),
    s.a.toNat % 2 ^ s.params.addrBits ≠ 0 → s.NameAt (s.a.toNat % 2 ^ s.params.addrBits) nm →
    s.params.catalogue = pre ++ row :: post → (∀ r ∈ pre, r.primaryName ≠ nm ∧ nm ∉ r.aliases) →
    (row.primaryName = nm ∨ nm ∈ row.aliases) →
    exec (.resolve ct) s = .next
      { s with
        draws := if ct then s.draws + 1 else s.draws
        cfg :=
          { name := some nm
            poly := row.polynomial
            init := row.initial
            refIn := row.reflectIn
            refOut := row.reflectOut
            xorOut := row.xorOut
            check := row.check
            residue := row.residue
            table :=
              if ct && Config.allocOk s.draws then
                some (buildTable (n := s.params.width.bits)
                  { poly := row.polynomial.setWidth _
                    xorOut := row.xorOut.setWidth _
                    refIn := row.reflectIn
                    refOut := row.reflectOut })
              else none } }

/-- R115: when no row matches, CFG is left empty, whatever CT is, and nothing else changes. -/
def Obligations.ResolveWithoutMatchEmpties : Prop :=
  ∀ (s : State) (ct : Bool) (nm : Name), s.a.toNat % 2 ^ s.params.addrBits ≠ 0 →
    s.NameAt (s.a.toNat % 2 ^ s.params.addrBits) nm →
    (∀ r ∈ s.params.catalogue, r.primaryName ≠ nm ∧ nm ∉ r.aliases) →
    exec (.resolve ct) s = .next
      { s with
        cfg := { name := none, poly := 0, init := 0, refIn := false, refOut := false, xorOut := 0, check := 0,
                 residue := 0, table := none } }

/-- An absent name leaves CFG empty, whatever memory holds or admits. R112 says "A = 0"; that the test is made on A cut to its AW
low bits, so that an A with other bits set above them is absent too, is the model's reading of R77 and R110: log entry 12. -/
def Obligations.ResolveAbsentNameEmpties : Prop :=
  ∀ (s : State) (ct : Bool), s.a.toNat % 2 ^ s.params.addrBits = 0 →
    exec (.resolve ct) s = .next
      { s with
        cfg := { name := none, poly := 0, init := 0, refIn := false, refOut := false, xorOut := 0, check := 0,
                 residue := 0, table := none } }

/-- R113: a name that reaches the top of the address space with no 0x00 byte faults; one that runs into an address memory does
not admit leaves the machine stuck. -/
def Obligations.ResolveNameWithoutEndStops : Prop :=
  ∀ (s : State) (ct : Bool) (k : Nat), s.a.toNat % 2 ^ s.params.addrBits ≠ 0 →
    s.AdmitsRange (s.a.toNat % 2 ^ s.params.addrBits) k →
    (∀ v ∈ s.bytesAt (s.a.toNat % 2 ^ s.params.addrBits) k, v ≠ 0) →
    (s.a.toNat % 2 ^ s.params.addrBits + k = 2 ^ s.params.addrBits →
      exec (.resolve ct) s = .fault .unterminatedName) ∧
    (s.a.toNat % 2 ^ s.params.addrBits + k < 2 ^ s.params.addrBits →
      s.admits (s.a.toNat % 2 ^ s.params.addrBits + k) = false → exec (.resolve ct) s = .fault .notAdmitted)

/-- Two names that find the same row load the same configuration but for the stored name, for the same draw. The spec marks this
as derived (41_resolver.md, "Resolving by any alias of a row loads the same CFG"). -/
def Obligations.AliasesLoadTheSameConfiguration : Prop :=
  ∀ (s₁ s₂ t₁ t₂ : State) (ct : Bool) (nm₁ nm₂ : Name) (row : CatalogRow),
    s₁.params = s₂.params → s₁.draws = s₂.draws →
    s₁.nameAddr ≠ 0 → s₂.nameAddr ≠ 0 → s₁.NameAt s₁.nameAddr nm₁ → s₂.NameAt s₂.nameAddr nm₂ →
    findRow s₁.params.catalogue nm₁ = some row → findRow s₁.params.catalogue nm₂ = some row →
    exec (.resolve ct) s₁ = .next t₁ → exec (.resolve ct) s₂ = .next t₂ →
    t₁.cfg.name = some nm₁ ∧ t₂.cfg.name = some nm₂ ∧ { t₁.cfg with name := none } = { t₂.cfg with name := none }

/-! ## The kernel and CALC_PARTIAL (42_kernel.md) -/

/-- R139, R137: one run of the kernel on the low W bits of A and the low byte of B, by the table path when a table is present and
the bitwise path when not, into RES; nothing else changes; with the four words of CALC_PARTIAL. -/
def Obligations.CalcPartialRunsKernel : Prop :=
  (decode 0x004 = .ok (.calcPartial false false) ∧ decode 0x044 = .ok (.calcPartial true false) ∧
    decode 0x084 = .ok (.calcPartial false true) ∧ decode 0x0C4 = .ok (.calcPartial true true)) ∧
  ∀ (f l : Bool) (s : State),
    exec (.calcPartial f l) s = .next
      { s with
        res :=
          (match s.cfg.table with
            | none =>
              bitwisePartial (s.cfg.datapath s.params.width.bits) (s.a.setWidth s.params.width.bits) (s.b.setWidth 8) f l
            | some t =>
              tablePartial (s.cfg.datapath s.params.width.bits) (fun i => (t[i.toNat]).setWidth s.params.width.bits)
                (s.a.setWidth s.params.width.bits) (s.b.setWidth 8) f l).setWidth 64 }

/-- R131: the step on numbers: the number doubled and cut to W bits, XORed with POLY when the top bit was 1. -/
def Obligations.ShiftStepOnNumbers : Prop :=
  ∀ (w : Width) (k : Datapath w.bits) (r : BitVec w.bits),
    (shiftStep k r).toNat =
      if 2 ^ (w.bits - 1) ≤ r.toNat then (r.toNat * 2 % 2 ^ w.bits) ^^^ k.poly.toNat else r.toNat * 2 % 2 ^ w.bits

/-- R130: bit i of the folded register: the byte, reflected when REFIN is 1, XORed into the top eight bits. -/
def Obligations.FoldXorsTheTopByte : Prop :=
  ∀ (w : Width) (k : Datapath w.bits) (r : BitVec w.bits) (b : Byte) (i : Nat), i < w.bits →
    (foldByte k r b).getLsbD i =
      (if i < w.bits - 8 then r.getLsbD i
       else (r.getLsbD i ^^ b.getLsbD (if k.refIn then 7 - (i - (w.bits - 8)) else i - (w.bits - 8))))

/-- R132, R133, R134: the bitwise kernel is eight steps on the folded register, and with `last` the XOR with XOROUT and then, with
REFOUT, the reflection of all W bits; `first` has no effect. -/
def Obligations.BitwiseKernelFinalizesOnLast : Prop :=
  ∀ (w : Width) (k : Datapath w.bits) (r : BitVec w.bits) (b : Byte) (first : Bool),
    let step := shiftStep k
    let d := step (step (step (step (step (step (step (step (foldByte k r b))))))))
    bitwisePartial k r b first false = d ∧
    ∀ i < w.bits, (bitwisePartial k r b first true).getLsbD i =
      (if k.refOut then d.getLsbD (w.bits - 1 - i) ^^ k.xorOut.getLsbD (w.bits - 1 - i)
       else d.getLsbD i ^^ k.xorOut.getLsbD i)

/-- R135, R136, R138: the two table steps on numbers, and the XOR with XOROUT on `last`, with no output reflection. -/
def Obligations.TableStepsOnNumbers : Prop :=
  ∀ (w : Width) (k : Datapath w.bits) (tbl : Byte → BitVec w.bits) (r : BitVec w.bits) (b : Byte) (first last : Bool),
    (tablePartial k tbl r b first last).toNat =
      (if k.refIn then
        let r1 := if first then (reflect r).toNat else r.toNat
        (r1 / 256) ^^^ (tbl (BitVec.ofNat 8 ((r1 ^^^ b.toNat) % 256))).toNat
       else
        (r.toNat * 256 % 2 ^ w.bits) ^^^
          (tbl (BitVec.ofNat 8 (((r.toNat / 2 ^ (w.bits - 8)) ^^^ b.toNat) % 256))).toNat) ^^^
      (if last then k.xorOut.toNat else 0)

/-- FIRST changes the result only in the table path with REFIN = 1. The spec marks this as derived (42_kernel.md, "The effect of
FIRST"). -/
def Obligations.FirstMattersOnlyInReflectedTable : Prop :=
  ∀ (s : State) (l : Bool), s.cfg.table = none ∨ s.cfg.refIn = false →
    exec (.calcPartial true l) s = exec (.calcPartial false l) s

/-- In normal orientation with REFOUT = 0 the two paths agree on every call. The spec marks this as derived (42_kernel.md, "In
normal orientation ... the table path and the bitwise path give the same value on every call"). -/
def Obligations.NormalOrientationPathsAgree : Prop :=
  ∀ (w : Width) (k : Datapath w.bits), k.refIn = false → k.refOut = false →
    ∀ (r : BitVec w.bits) (b : Byte) (first last : Bool),
      tablePartial k (builtTable k) r b first last = bitwisePartial k r b first last

/-- In reflected orientation with a palindromic XOROUT the table-mode register is the reflection of the bitwise one after every
byte but the last, where the two are equal. The spec marks this as derived (42_kernel.md, "Reflected orientation"). -/
def Obligations.ReflectedOrientationPathsAgree : Prop :=
  ∀ (w : Width) (k : Datapath w.bits), k.refIn = true → k.refOut = true → reflect k.xorOut = k.xorOut →
    ∀ (r : BitVec w.bits) (b : Byte),
      tablePartial k (builtTable k) r b true false = reflect (bitwisePartial k r b true false) ∧
      tablePartial k (builtTable k) (reflect r) b false false = reflect (bitwisePartial k r b false false) ∧
      tablePartial k (builtTable k) r b true true = bitwisePartial k r b true true ∧
      tablePartial k (builtTable k) (reflect r) b false true = bitwisePartial k r b false true

/-- Under AGREE the two modes give the same final result for every message of at least one byte, from every register. The spec marks
this as derived (42_kernel.md, "Agreement condition"). -/
def Obligations.AgreeingModesGiveTheSameCrc : Prop :=
  ∀ (w : Width) (k : Datapath w.bits), k.Agree → ∀ (init : BitVec w.bits) (msg : List Byte), msg ≠ [] →
    foldMessage k (some (builtTable k)) true init msg = foldMessage k none true init msg

/-- Under AGREE a whole-buffer command does the same with the table as without it: RES, the appended bytes and the verdict. The
spec marks this as derived (42_kernel.md, "Agreement condition"). -/
def Obligations.AgreeingModesRunBufferCommandsAlike : Prop :=
  ∀ (s t : State) (i : Instr), i = .calculate ∨ i = .calcAppend ∨ i = .verify →
    s.cfg.table = some (buildTable (s.cfg.datapath s.params.width.bits)) → (s.cfg.datapath s.params.width.bits).Agree →
    exec i s = .next t →
    exec i { s with cfg := { s.cfg with table := none } } = .next { t with cfg := { t.cfg with table := none } }

/-- A stream of CALC_PARTIAL over the bytes of a message, seeded with CFG.INIT, ends with the CRC of the whole message in RES, and
leaves CFG and memory alone. The spec marks this as derived (42_kernel.md, "The kernel is a pure function"; the protocol
is 70_reset_and_hazards.md, "Stream protocol"). -/
def Obligations.StreamGivesTheWholeCrc : Prop :=
  ∀ (s : State) (msg : List Byte), msg ≠ [] → s.a = s.cfg.init →
    ∃ t, partialStream true s msg = .next t ∧ t.res = (s.crc msg).setWidth 64 ∧ t.cfg = s.cfg ∧ t.mem = s.mem

/-! ## The table generator (43_table_generator.md) -/

/-- The closed form of a table entry. The spec marks this as derived (43_table_generator.md, "Closed form of each entry"). -/
def Obligations.TableEntryClosedForm : Prop :=
  ∀ (w : Width) (k : Datapath w.bits) (i : Byte),
    tableEntry k i =
      if k.refOut then reflect (divide8 k (foldByte k 0 i)) ^^^ reflect k.xorOut ^^^ k.xorOut
      else divide8 k (foldByte k 0 i)

/-- Entry 0 of the built table is 0 exactly when REFOUT = 0 or XOROUT is a palindrome. The spec marks this as derived
(43_table_generator.md, "Entry 0 is always 0"). -/
def Obligations.TableEntryZeroVanishes : Prop :=
  ∀ (w : Width) (k : Datapath w.bits), (buildTable k)[0] = 0 ↔ (k.refOut = false ∨ reflect k.xorOut = k.xorOut)

/-! ## CALCULATE, CALC_APPEND, VERIFY (44_whole_buffer.md) -/

/-- R170, R171: absent data gives 0, no bytes give the value of the policy, a range past the top faults, an address memory does not
admit is the stuck case, and else RES gets the fold of the kernel over the bytes; nothing else changes. -/
def Obligations.CalculateResult : Prop :=
  decode 0x005 = .ok .calculate ∧ ∀ s : State,
    (s.addr = 0 → exec .calculate s = .next { s with res := 0 }) ∧
    (s.addr ≠ 0 → s.len = 0 →
      exec .calculate s = .next
        { s with
          res := (match s.params.zeroLen with
            | .finalize => finalizeBitwise (s.cfg.datapath s.params.width.bits) (s.cfg.init.setWidth _)
            | .raw => s.cfg.init.setWidth s.params.width.bits).setWidth 64 }) ∧
    (s.addr ≠ 0 → s.len ≠ 0 → 2 ^ s.params.addrBits < s.addr.toNat + s.len.toNat →
      exec .calculate s = .fault .rangeWrap) ∧
    (s.addr ≠ 0 → s.len ≠ 0 → s.addr.toNat + s.len.toNat ≤ 2 ^ s.params.addrBits →
      ¬ s.AdmitsRange s.addr.toNat s.len.toNat → exec .calculate s = .fault .notAdmitted) ∧
    (s.addr ≠ 0 → s.len ≠ 0 → s.addr.toNat + s.len.toNat ≤ 2 ^ s.params.addrBits →
      s.AdmitsRange s.addr.toNat s.len.toNat →
      exec .calculate s = .next { s with res := (s.loopCrc s.addr.toNat s.len.toNat).setWidth 64 })

/-- R172, R173: the silent no-op of the guard on unbounded integers, the range fault, the stuck case, and else the CRC of the first DLEN
bytes as W/8 bytes directly after them, little-endian when REFOUT = 1 and big-endian when REFOUT = 0, with every other
byte and all other state as before. -/
def Obligations.CalcAppendWritesTheChecksum : Prop :=
  decode 0x006 = .ok .calcAppend ∧ ∀ s : State,
    let k := s.params.width.bits / 8
    let at_ := s.addr.toNat + s.dlen.toNat
    let crc : BitVec s.params.width.bits :=
      if s.dlen = 0 then zeroLength s.params.zeroLen (s.cfg.datapath s.params.width.bits) (s.cfg.init.setWidth _)
      else s.loopCrc s.addr.toNat s.dlen.toNat
    (s.addr = 0 ∨ s.len.toNat < s.dlen.toNat + k → exec .calcAppend s = .next s) ∧
    (s.addr ≠ 0 → s.dlen.toNat + k ≤ s.len.toNat → 2 ^ s.params.addrBits < at_ + k →
      exec .calcAppend s = .fault .rangeWrap) ∧
    (s.addr ≠ 0 → s.dlen.toNat + k ≤ s.len.toNat → at_ + k ≤ 2 ^ s.params.addrBits →
      ¬ s.AdmitsRange s.addr.toNat (s.dlen.toNat + k) → exec .calcAppend s = .fault .notAdmitted) ∧
    (s.addr ≠ 0 → s.dlen.toNat + k ≤ s.len.toNat → at_ + k ≤ 2 ^ s.params.addrBits →
      s.AdmitsRange s.addr.toNat (s.dlen.toNat + k) →
      ∃ t, exec .calcAppend s = .next t ∧ t = { s with mem := t.mem } ∧
        (∀ x, x < at_ ∨ at_ + k ≤ x → t.mem.get x = s.mem.get x) ∧
        (s.mem.wf → ∀ i < k,
          t.mem.get (at_ + i) = crc.extractLsb' (8 * (if s.cfg.refOut then i else k - 1 - i)) 8))

/-- R174, R177: VERIFY_OK and RES are 0 for an absent or short buffer; else a range past the top faults, an address memory does not
admit is the stuck case, and otherwise they are 1 exactly when the CRC of the whole buffer XORed with XOROUT is RESIDUE; nothing
else changes. -/
def Obligations.VerifyVerdict : Prop :=
  decode 0x007 = .ok .verify ∧ ∀ s : State,
    let k := s.params.width.bits / 8
    let ok : Bool :=
      (s.loopCrc s.addr.toNat s.len.toNat ^^^ s.cfg.xorOut.setWidth s.params.width.bits) ==
        s.cfg.residue.setWidth s.params.width.bits
    (s.addr = 0 ∨ s.len.toNat < k → exec .verify s = .next { s with verifyOk := false, res := 0 }) ∧
    (s.addr ≠ 0 → k ≤ s.len.toNat → 2 ^ s.params.addrBits < s.addr.toNat + s.len.toNat →
      exec .verify s = .fault .rangeWrap) ∧
    (s.addr ≠ 0 → k ≤ s.len.toNat → s.addr.toNat + s.len.toNat ≤ 2 ^ s.params.addrBits →
      ¬ s.AdmitsRange s.addr.toNat s.len.toNat → exec .verify s = .fault .notAdmitted) ∧
    (s.addr ≠ 0 → k ≤ s.len.toNat → s.addr.toNat + s.len.toNat ≤ 2 ^ s.params.addrBits →
      s.AdmitsRange s.addr.toNat s.len.toNat →
      exec .verify s = .next { s with verifyOk := ok, res := if ok then 1 else 0 })

/-- What the commands give under the empty configuration. The spec marks this as derived (44_whole_buffer.md, "The empty
configuration"). -/
def Obligations.EmptyConfigurationResults : Prop :=
  ∀ s : State, s.cfg = Cfg.empty →
    let k := s.params.width.bits / 8
    (∀ f l, exec (.calcPartial f l) s = .next
      { s with res := BitVec.ofNat 64 (s.a.toNat % 2 ^ s.params.width.bits * 256 % 2 ^ s.params.width.bits) }) ∧
    (s.addr ≠ 0 → s.addr.toNat + s.len.toNat ≤ 2 ^ s.params.addrBits → s.AdmitsRange s.addr.toNat s.len.toNat →
      exec .calculate s = .next { s with res := 0 } ∧
      (k ≤ s.len.toNat → exec .verify s = .next { s with verifyOk := true, res := 1 })) ∧
    (s.addr ≠ 0 → s.dlen.toNat + k ≤ s.len.toNat → s.addr.toNat + (s.dlen.toNat + k) ≤ 2 ^ s.params.addrBits →
      s.AdmitsRange s.addr.toNat (s.dlen.toNat + k) → s.mem.wf →
      ∃ t, exec .calcAppend s = .next t ∧ t = { s with mem := t.mem } ∧
        ∀ i < k, t.mem.get (s.addr.toNat + s.dlen.toNat + i) = 0)

/-- The CRC of a message followed by its appended checksum does not depend on the message, in bitwise mode with REFIN = REFOUT, under
Finalize. The spec marks this as derived and checked by computation, not proved (44_whole_buffer.md, "The residue property"). -/
def Obligations.ResidueIsMessageIndependent : Prop :=
  ∀ (w : Width) (k : Datapath w.bits), k.refIn = k.refOut → ∀ (init : BitVec w.bits) (msg msg' : List Byte),
    bitwiseCrc k init (appended k init msg) = bitwiseCrc k init (appended k init msg')

/-- The round trip: CALC_APPEND and then VERIFY over the same buffer gives 1, under Finalize, when the residue field is the row's
constant and the modes agree (in bitwise mode REFIN = REFOUT is enough). The spec marks the property it rests on as derived
(44_whole_buffer.md, "Round trip", "The residue property"). -/
def Obligations.AppendThenVerifySucceeds : Prop :=
  ∀ (s : State),
    let k := s.cfg.datapath s.params.width.bits
    let init : BitVec s.params.width.bits := s.cfg.init.setWidth _
    s.params.zeroLen = .finalize → s.mem.wf →
    (s.cfg.table = none ∧ k.refIn = k.refOut) ∨ (s.cfg.table = some (buildTable k) ∧ k.Agree) →
    s.cfg.residue = (bitwiseCrc k init (appended k init []) ^^^ k.xorOut).setWidth 64 →
    s.addr ≠ 0 → s.len.toNat = s.dlen.toNat + s.params.width.bits / 8 →
    s.addr.toNat + s.len.toNat ≤ 2 ^ s.params.addrBits → s.AdmitsRange s.addr.toNat s.len.toNat →
    ∃ t u, exec .calcAppend s = .next t ∧ exec .verify t = .next u ∧ u.verifyOk = true ∧ u.res = 1

/-! ## RELEASE (45_lifecycle.md) -/

/-- R190: RELEASE leaves CFG empty, with no name and no table, and nothing else changes. -/
def Obligations.ReleaseEmptiesConfiguration : Prop :=
  decode 0x008 = .ok .release ∧ ∀ s : State,
    exec .release s = .next
      { s with
        cfg := { name := none, poly := 0, init := 0, refIn := false, refOut := false, xorOut := 0, check := 0,
                 residue := 0, table := none } }

/-- R191: RELEASE on an empty configuration changes nothing, and two in a row leave what one leaves. -/
def Obligations.ReleaseIsIdempotent : Prop :=
  (∀ s : State, s.cfg = Cfg.empty → exec .release s = .next s) ∧
  (∀ s t : State, exec .release s = .next t → exec .release t = .next t)

/-! ## The whole machine (10_state.md, 20_memory.md, 60_exceptions.md) -/

/-- The write matrix: what each command may write, and so what every command leaves alone. The spec marks it as derived
(10_state.md, "Write matrix"); the draws are the model's own field (log entry 1). -/
def Obligations.CommandWriteMatrix : Prop :=
  ∀ (i : Instr) (s t : State), exec i s = .next t →
    t.params = s.params ∧ t.a = s.a ∧ t.b = s.b ∧ t.addr = s.addr ∧ t.len = s.len ∧ t.dlen = s.dlen ∧
    t.program = s.program ∧ t.pos = s.pos ∧ t.lastRead = s.lastRead ∧
    (i.mnemonic ∉ ["RESOLVE", "RELEASE"] → t.cfg = s.cfg) ∧
    (i.mnemonic ∉ ["REFLECT", "CALC_PARTIAL", "CALCULATE", "VERIFY"] → t.res = s.res) ∧
    (i.mnemonic ≠ "VERIFY" → t.verifyOk = s.verifyOk) ∧
    (i.mnemonic ∉ ["INSERT", "CALC_APPEND"] → t.mem = s.mem) ∧
    (∀ n be, i = .insert n be →
      ∀ x, x < s.addr.toNat ∨ s.addr.toNat + n.bits / 8 ≤ x → t.mem.get x = s.mem.get x) ∧
    (i = .calcAppend →
      ∀ x, x < s.addr.toNat + s.dlen.toNat ∨ s.addr.toNat + s.dlen.toNat + s.params.width.bits / 8 ≤ x →
        t.mem.get x = s.mem.get x) ∧
    (i ≠ .resolve true → t.draws = s.draws)

/-- R25: RES is written by REFLECT, CALC_PARTIAL, CALCULATE and VERIFY only, each with a value zero-extended from its width: n bits,
W bits, W bits and one bit. -/
def Obligations.ResIsWrittenByFourCommands : Prop :=
  ∀ (i : Instr) (s t : State), exec i s = .next t →
    match i with
    | .reflect n => t.res.toNat < 2 ^ n.bits
    | .calcPartial _ _ => t.res.toNat < 2 ^ s.params.width.bits
    | .calculate => t.res.toNat < 2 ^ s.params.width.bits
    | .verify => t.res.toNat < 2
    | .insert _ _ => t.res = s.res
    | .resolve _ => t.res = s.res
    | .calcAppend => t.res = s.res
    | .release => t.res = s.res

/-- Which command can end with which fault, and that no command is refused: the closed set of faults, and the stuck case of the
commands that access memory. -/
def Obligations.CommandsFaultOnlyAsListed : Prop :=
  ∀ (i : Instr) (s : State),
    (∀ f, exec i s = .fault f →
      (f = .rangeWrap ∧ i.mnemonic ∈ ["INSERT", "CALCULATE", "CALC_APPEND", "VERIFY"]) ∨
      (f = .unterminatedName ∧ i.mnemonic = "RESOLVE") ∨
      (f = .notAdmitted ∧ i.mnemonic ∈ ["INSERT", "RESOLVE", "CALCULATE", "CALC_APPEND", "VERIFY"])) ∧
    ∀ r, exec i s ≠ .refused r

/-- No command writes address 0, and what a command does, the bytes it stores among it, does not depend on the byte there (R53). -/
def Obligations.AddressZeroIsNeverAccessed : Prop :=
  ∀ (i : Instr) (s t : State) (m : Memory), exec i s = .next t → (∀ x, x ≠ 0 → m.get x = s.mem.get x) →
    t.mem.get 0 = s.mem.get 0 ∧
    ∃ t', exec i { s with mem := m } = .next t' ∧ t' = { t with mem := t'.mem } ∧ t'.mem.get 0 = m.get 0 ∧
      (s.mem.wf → m.wf → ∀ x, x ≠ 0 → t'.mem.get x = t.mem.get x)

/-- What a command does, the bytes it stores among it, depends on no byte of memory outside the range it reads, and it leaves every byte
outside the range it stores to as it was. The spec marks the table of ranges as derived (20_memory.md, "for each command, the memory
it reads and the memory it writes"). -/
def Obligations.CommandsReadOnlyTheirRange : Prop :=
  ∀ (i : Instr) (s t : State) (m : Memory), exec i s = .next t → (∀ x, s.Reads i x → m.get x = s.mem.get x) →
    ∃ t', exec i { s with mem := m } = .next t' ∧ t' = { t with mem := t'.mem } ∧
      (∀ x, ¬ s.Stores i x → t'.mem.get x = m.get x ∧ t.mem.get x = s.mem.get x) ∧
      (s.mem.wf → m.wf → ∀ x, s.Stores i x → t'.mem.get x = t.mem.get x)

/-- Every step keeps the invariant: W-bit quantities in form, a table only under a name and always the one CFG's fields give, ADDR
an AW-bit value, memory in canonical form. The spec marks the configuration invariant as derived (10_state.md, "The configuration
invariant"). -/
def Obligations.StepKeepsTheStateInvariant : Prop :=
  ∀ s t : State, s.Inv → step s = .next t → t.Inv

/-- The invariant holds after reset, of the default instance and of every instance with well-formed parameters. -/
def Obligations.ResetMeetsTheStateInvariant : Prop :=
  State.reset.Inv ∧ ∀ p : Params, p.WellFormed → (State.resetWith p).Inv

/-- No step changes a parameter of the instance, the catalogue among them, or the host's program, and each action moves the
host's index on by one (R36, R40). -/
def Obligations.StepKeepsParametersAndProgram : Prop :=
  ∀ s t : State, step s = .next t →
    t.params = s.params ∧ t.program = s.program ∧ t.pos = if s.nextAction = none then s.pos else s.pos + 1
end

