-- ==== Sys2Proof/Laws/State.lean ====
section
/-! SUPPORT. One lemma per field of the state and update, so that no proof unfolds a record update; and what each update
leaves of the derived values (the address space, the admitted addresses, the operands, the draw). -/

namespace Sys2Proof.Machine

variable (s : State)

/-! `State.setCfg` -/

@[simp] theorem State.setCfg_params (v : Cfg) : (s.setCfg v).params = s.params := rfl
@[simp] theorem State.setCfg_cfg (v : Cfg) : (s.setCfg v).cfg = v := rfl
@[simp] theorem State.setCfg_a (v : Cfg) : (s.setCfg v).a = s.a := rfl
@[simp] theorem State.setCfg_b (v : Cfg) : (s.setCfg v).b = s.b := rfl
@[simp] theorem State.setCfg_addr (v : Cfg) : (s.setCfg v).addr = s.addr := rfl
@[simp] theorem State.setCfg_len (v : Cfg) : (s.setCfg v).len = s.len := rfl
@[simp] theorem State.setCfg_dlen (v : Cfg) : (s.setCfg v).dlen = s.dlen := rfl
@[simp] theorem State.setCfg_res (v : Cfg) : (s.setCfg v).res = s.res := rfl
@[simp] theorem State.setCfg_verifyOk (v : Cfg) : (s.setCfg v).verifyOk = s.verifyOk := rfl
@[simp] theorem State.setCfg_mem (v : Cfg) : (s.setCfg v).mem = s.mem := rfl
@[simp] theorem State.setCfg_program (v : Cfg) : (s.setCfg v).program = s.program := rfl
@[simp] theorem State.setCfg_pos (v : Cfg) : (s.setCfg v).pos = s.pos := rfl
@[simp] theorem State.setCfg_lastRead (v : Cfg) : (s.setCfg v).lastRead = s.lastRead := rfl
@[simp] theorem State.setCfg_draws (v : Cfg) : (s.setCfg v).draws = s.draws := rfl
@[simp] theorem State.setCfg_space (v : Cfg) : (s.setCfg v).space = s.space := rfl
@[simp] theorem State.setCfg_admits (v : Cfg) (x : Nat) : (s.setCfg v).admits x = s.admits x := rfl

/-! `State.setA` -/

@[simp] theorem State.setA_params (v : Word) : (s.setA v).params = s.params := rfl
@[simp] theorem State.setA_cfg (v : Word) : (s.setA v).cfg = s.cfg := rfl
@[simp] theorem State.setA_a (v : Word) : (s.setA v).a = v := rfl
@[simp] theorem State.setA_b (v : Word) : (s.setA v).b = s.b := rfl
@[simp] theorem State.setA_addr (v : Word) : (s.setA v).addr = s.addr := rfl
@[simp] theorem State.setA_len (v : Word) : (s.setA v).len = s.len := rfl
@[simp] theorem State.setA_dlen (v : Word) : (s.setA v).dlen = s.dlen := rfl
@[simp] theorem State.setA_res (v : Word) : (s.setA v).res = s.res := rfl
@[simp] theorem State.setA_verifyOk (v : Word) : (s.setA v).verifyOk = s.verifyOk := rfl
@[simp] theorem State.setA_mem (v : Word) : (s.setA v).mem = s.mem := rfl
@[simp] theorem State.setA_program (v : Word) : (s.setA v).program = s.program := rfl
@[simp] theorem State.setA_pos (v : Word) : (s.setA v).pos = s.pos := rfl
@[simp] theorem State.setA_lastRead (v : Word) : (s.setA v).lastRead = s.lastRead := rfl
@[simp] theorem State.setA_draws (v : Word) : (s.setA v).draws = s.draws := rfl
@[simp] theorem State.setA_space (v : Word) : (s.setA v).space = s.space := rfl
@[simp] theorem State.setA_admits (v : Word) (x : Nat) : (s.setA v).admits x = s.admits x := rfl

/-! `State.setB` -/

@[simp] theorem State.setB_params (v : Word) : (s.setB v).params = s.params := rfl
@[simp] theorem State.setB_cfg (v : Word) : (s.setB v).cfg = s.cfg := rfl
@[simp] theorem State.setB_a (v : Word) : (s.setB v).a = s.a := rfl
@[simp] theorem State.setB_b (v : Word) : (s.setB v).b = v := rfl
@[simp] theorem State.setB_addr (v : Word) : (s.setB v).addr = s.addr := rfl
@[simp] theorem State.setB_len (v : Word) : (s.setB v).len = s.len := rfl
@[simp] theorem State.setB_dlen (v : Word) : (s.setB v).dlen = s.dlen := rfl
@[simp] theorem State.setB_res (v : Word) : (s.setB v).res = s.res := rfl
@[simp] theorem State.setB_verifyOk (v : Word) : (s.setB v).verifyOk = s.verifyOk := rfl
@[simp] theorem State.setB_mem (v : Word) : (s.setB v).mem = s.mem := rfl
@[simp] theorem State.setB_program (v : Word) : (s.setB v).program = s.program := rfl
@[simp] theorem State.setB_pos (v : Word) : (s.setB v).pos = s.pos := rfl
@[simp] theorem State.setB_lastRead (v : Word) : (s.setB v).lastRead = s.lastRead := rfl
@[simp] theorem State.setB_draws (v : Word) : (s.setB v).draws = s.draws := rfl
@[simp] theorem State.setB_space (v : Word) : (s.setB v).space = s.space := rfl
@[simp] theorem State.setB_admits (v : Word) (x : Nat) : (s.setB v).admits x = s.admits x := rfl

/-! `State.setAddr` -/

@[simp] theorem State.setAddr_params (v : Word) : (s.setAddr v).params = s.params := rfl
@[simp] theorem State.setAddr_cfg (v : Word) : (s.setAddr v).cfg = s.cfg := rfl
@[simp] theorem State.setAddr_a (v : Word) : (s.setAddr v).a = s.a := rfl
@[simp] theorem State.setAddr_b (v : Word) : (s.setAddr v).b = s.b := rfl
@[simp] theorem State.setAddr_addr (v : Word) : (s.setAddr v).addr = v := rfl
@[simp] theorem State.setAddr_len (v : Word) : (s.setAddr v).len = s.len := rfl
@[simp] theorem State.setAddr_dlen (v : Word) : (s.setAddr v).dlen = s.dlen := rfl
@[simp] theorem State.setAddr_res (v : Word) : (s.setAddr v).res = s.res := rfl
@[simp] theorem State.setAddr_verifyOk (v : Word) : (s.setAddr v).verifyOk = s.verifyOk := rfl
@[simp] theorem State.setAddr_mem (v : Word) : (s.setAddr v).mem = s.mem := rfl
@[simp] theorem State.setAddr_program (v : Word) : (s.setAddr v).program = s.program := rfl
@[simp] theorem State.setAddr_pos (v : Word) : (s.setAddr v).pos = s.pos := rfl
@[simp] theorem State.setAddr_lastRead (v : Word) : (s.setAddr v).lastRead = s.lastRead := rfl
@[simp] theorem State.setAddr_draws (v : Word) : (s.setAddr v).draws = s.draws := rfl
@[simp] theorem State.setAddr_space (v : Word) : (s.setAddr v).space = s.space := rfl
@[simp] theorem State.setAddr_admits (v : Word) (x : Nat) : (s.setAddr v).admits x = s.admits x := rfl

/-! `State.setLen` -/

@[simp] theorem State.setLen_params (v : Word) : (s.setLen v).params = s.params := rfl
@[simp] theorem State.setLen_cfg (v : Word) : (s.setLen v).cfg = s.cfg := rfl
@[simp] theorem State.setLen_a (v : Word) : (s.setLen v).a = s.a := rfl
@[simp] theorem State.setLen_b (v : Word) : (s.setLen v).b = s.b := rfl
@[simp] theorem State.setLen_addr (v : Word) : (s.setLen v).addr = s.addr := rfl
@[simp] theorem State.setLen_len (v : Word) : (s.setLen v).len = v := rfl
@[simp] theorem State.setLen_dlen (v : Word) : (s.setLen v).dlen = s.dlen := rfl
@[simp] theorem State.setLen_res (v : Word) : (s.setLen v).res = s.res := rfl
@[simp] theorem State.setLen_verifyOk (v : Word) : (s.setLen v).verifyOk = s.verifyOk := rfl
@[simp] theorem State.setLen_mem (v : Word) : (s.setLen v).mem = s.mem := rfl
@[simp] theorem State.setLen_program (v : Word) : (s.setLen v).program = s.program := rfl
@[simp] theorem State.setLen_pos (v : Word) : (s.setLen v).pos = s.pos := rfl
@[simp] theorem State.setLen_lastRead (v : Word) : (s.setLen v).lastRead = s.lastRead := rfl
@[simp] theorem State.setLen_draws (v : Word) : (s.setLen v).draws = s.draws := rfl
@[simp] theorem State.setLen_space (v : Word) : (s.setLen v).space = s.space := rfl
@[simp] theorem State.setLen_admits (v : Word) (x : Nat) : (s.setLen v).admits x = s.admits x := rfl

/-! `State.setDlen` -/

@[simp] theorem State.setDlen_params (v : Word) : (s.setDlen v).params = s.params := rfl
@[simp] theorem State.setDlen_cfg (v : Word) : (s.setDlen v).cfg = s.cfg := rfl
@[simp] theorem State.setDlen_a (v : Word) : (s.setDlen v).a = s.a := rfl
@[simp] theorem State.setDlen_b (v : Word) : (s.setDlen v).b = s.b := rfl
@[simp] theorem State.setDlen_addr (v : Word) : (s.setDlen v).addr = s.addr := rfl
@[simp] theorem State.setDlen_len (v : Word) : (s.setDlen v).len = s.len := rfl
@[simp] theorem State.setDlen_dlen (v : Word) : (s.setDlen v).dlen = v := rfl
@[simp] theorem State.setDlen_res (v : Word) : (s.setDlen v).res = s.res := rfl
@[simp] theorem State.setDlen_verifyOk (v : Word) : (s.setDlen v).verifyOk = s.verifyOk := rfl
@[simp] theorem State.setDlen_mem (v : Word) : (s.setDlen v).mem = s.mem := rfl
@[simp] theorem State.setDlen_program (v : Word) : (s.setDlen v).program = s.program := rfl
@[simp] theorem State.setDlen_pos (v : Word) : (s.setDlen v).pos = s.pos := rfl
@[simp] theorem State.setDlen_lastRead (v : Word) : (s.setDlen v).lastRead = s.lastRead := rfl
@[simp] theorem State.setDlen_draws (v : Word) : (s.setDlen v).draws = s.draws := rfl
@[simp] theorem State.setDlen_space (v : Word) : (s.setDlen v).space = s.space := rfl
@[simp] theorem State.setDlen_admits (v : Word) (x : Nat) : (s.setDlen v).admits x = s.admits x := rfl

/-! `State.setRes` -/

@[simp] theorem State.setRes_params (v : Word) : (s.setRes v).params = s.params := rfl
@[simp] theorem State.setRes_cfg (v : Word) : (s.setRes v).cfg = s.cfg := rfl
@[simp] theorem State.setRes_a (v : Word) : (s.setRes v).a = s.a := rfl
@[simp] theorem State.setRes_b (v : Word) : (s.setRes v).b = s.b := rfl
@[simp] theorem State.setRes_addr (v : Word) : (s.setRes v).addr = s.addr := rfl
@[simp] theorem State.setRes_len (v : Word) : (s.setRes v).len = s.len := rfl
@[simp] theorem State.setRes_dlen (v : Word) : (s.setRes v).dlen = s.dlen := rfl
@[simp] theorem State.setRes_res (v : Word) : (s.setRes v).res = v := rfl
@[simp] theorem State.setRes_verifyOk (v : Word) : (s.setRes v).verifyOk = s.verifyOk := rfl
@[simp] theorem State.setRes_mem (v : Word) : (s.setRes v).mem = s.mem := rfl
@[simp] theorem State.setRes_program (v : Word) : (s.setRes v).program = s.program := rfl
@[simp] theorem State.setRes_pos (v : Word) : (s.setRes v).pos = s.pos := rfl
@[simp] theorem State.setRes_lastRead (v : Word) : (s.setRes v).lastRead = s.lastRead := rfl
@[simp] theorem State.setRes_draws (v : Word) : (s.setRes v).draws = s.draws := rfl
@[simp] theorem State.setRes_space (v : Word) : (s.setRes v).space = s.space := rfl
@[simp] theorem State.setRes_admits (v : Word) (x : Nat) : (s.setRes v).admits x = s.admits x := rfl

/-! `State.setVerifyOk` -/

@[simp] theorem State.setVerifyOk_params (v : Bool) : (s.setVerifyOk v).params = s.params := rfl
@[simp] theorem State.setVerifyOk_cfg (v : Bool) : (s.setVerifyOk v).cfg = s.cfg := rfl
@[simp] theorem State.setVerifyOk_a (v : Bool) : (s.setVerifyOk v).a = s.a := rfl
@[simp] theorem State.setVerifyOk_b (v : Bool) : (s.setVerifyOk v).b = s.b := rfl
@[simp] theorem State.setVerifyOk_addr (v : Bool) : (s.setVerifyOk v).addr = s.addr := rfl
@[simp] theorem State.setVerifyOk_len (v : Bool) : (s.setVerifyOk v).len = s.len := rfl
@[simp] theorem State.setVerifyOk_dlen (v : Bool) : (s.setVerifyOk v).dlen = s.dlen := rfl
@[simp] theorem State.setVerifyOk_res (v : Bool) : (s.setVerifyOk v).res = s.res := rfl
@[simp] theorem State.setVerifyOk_verifyOk (v : Bool) : (s.setVerifyOk v).verifyOk = v := rfl
@[simp] theorem State.setVerifyOk_mem (v : Bool) : (s.setVerifyOk v).mem = s.mem := rfl
@[simp] theorem State.setVerifyOk_program (v : Bool) : (s.setVerifyOk v).program = s.program := rfl
@[simp] theorem State.setVerifyOk_pos (v : Bool) : (s.setVerifyOk v).pos = s.pos := rfl
@[simp] theorem State.setVerifyOk_lastRead (v : Bool) : (s.setVerifyOk v).lastRead = s.lastRead := rfl
@[simp] theorem State.setVerifyOk_draws (v : Bool) : (s.setVerifyOk v).draws = s.draws := rfl
@[simp] theorem State.setVerifyOk_space (v : Bool) : (s.setVerifyOk v).space = s.space := rfl
@[simp] theorem State.setVerifyOk_admits (v : Bool) (x : Nat) : (s.setVerifyOk v).admits x = s.admits x := rfl

/-! `State.setMem` -/

@[simp] theorem State.setMem_params (v : Memory) : (s.setMem v).params = s.params := rfl
@[simp] theorem State.setMem_cfg (v : Memory) : (s.setMem v).cfg = s.cfg := rfl
@[simp] theorem State.setMem_a (v : Memory) : (s.setMem v).a = s.a := rfl
@[simp] theorem State.setMem_b (v : Memory) : (s.setMem v).b = s.b := rfl
@[simp] theorem State.setMem_addr (v : Memory) : (s.setMem v).addr = s.addr := rfl
@[simp] theorem State.setMem_len (v : Memory) : (s.setMem v).len = s.len := rfl
@[simp] theorem State.setMem_dlen (v : Memory) : (s.setMem v).dlen = s.dlen := rfl
@[simp] theorem State.setMem_res (v : Memory) : (s.setMem v).res = s.res := rfl
@[simp] theorem State.setMem_verifyOk (v : Memory) : (s.setMem v).verifyOk = s.verifyOk := rfl
@[simp] theorem State.setMem_mem (v : Memory) : (s.setMem v).mem = v := rfl
@[simp] theorem State.setMem_program (v : Memory) : (s.setMem v).program = s.program := rfl
@[simp] theorem State.setMem_pos (v : Memory) : (s.setMem v).pos = s.pos := rfl
@[simp] theorem State.setMem_lastRead (v : Memory) : (s.setMem v).lastRead = s.lastRead := rfl
@[simp] theorem State.setMem_draws (v : Memory) : (s.setMem v).draws = s.draws := rfl
@[simp] theorem State.setMem_space (v : Memory) : (s.setMem v).space = s.space := rfl
@[simp] theorem State.setMem_admits (v : Memory) (x : Nat) : (s.setMem v).admits x = s.admits x := rfl

/-! `State.setProgram` -/

@[simp] theorem State.setProgram_params (v : List HostAction) : (s.setProgram v).params = s.params := rfl
@[simp] theorem State.setProgram_cfg (v : List HostAction) : (s.setProgram v).cfg = s.cfg := rfl
@[simp] theorem State.setProgram_a (v : List HostAction) : (s.setProgram v).a = s.a := rfl
@[simp] theorem State.setProgram_b (v : List HostAction) : (s.setProgram v).b = s.b := rfl
@[simp] theorem State.setProgram_addr (v : List HostAction) : (s.setProgram v).addr = s.addr := rfl
@[simp] theorem State.setProgram_len (v : List HostAction) : (s.setProgram v).len = s.len := rfl
@[simp] theorem State.setProgram_dlen (v : List HostAction) : (s.setProgram v).dlen = s.dlen := rfl
@[simp] theorem State.setProgram_res (v : List HostAction) : (s.setProgram v).res = s.res := rfl
@[simp] theorem State.setProgram_verifyOk (v : List HostAction) : (s.setProgram v).verifyOk = s.verifyOk := rfl
@[simp] theorem State.setProgram_mem (v : List HostAction) : (s.setProgram v).mem = s.mem := rfl
@[simp] theorem State.setProgram_program (v : List HostAction) : (s.setProgram v).program = v := rfl
@[simp] theorem State.setProgram_pos (v : List HostAction) : (s.setProgram v).pos = s.pos := rfl
@[simp] theorem State.setProgram_lastRead (v : List HostAction) : (s.setProgram v).lastRead = s.lastRead := rfl
@[simp] theorem State.setProgram_draws (v : List HostAction) : (s.setProgram v).draws = s.draws := rfl
@[simp] theorem State.setProgram_space (v : List HostAction) : (s.setProgram v).space = s.space := rfl
@[simp] theorem State.setProgram_admits (v : List HostAction) (x : Nat) : (s.setProgram v).admits x = s.admits x := rfl

/-! `State.setLastRead` -/

@[simp] theorem State.setLastRead_params (v : Word) : (s.setLastRead v).params = s.params := rfl
@[simp] theorem State.setLastRead_cfg (v : Word) : (s.setLastRead v).cfg = s.cfg := rfl
@[simp] theorem State.setLastRead_a (v : Word) : (s.setLastRead v).a = s.a := rfl
@[simp] theorem State.setLastRead_b (v : Word) : (s.setLastRead v).b = s.b := rfl
@[simp] theorem State.setLastRead_addr (v : Word) : (s.setLastRead v).addr = s.addr := rfl
@[simp] theorem State.setLastRead_len (v : Word) : (s.setLastRead v).len = s.len := rfl
@[simp] theorem State.setLastRead_dlen (v : Word) : (s.setLastRead v).dlen = s.dlen := rfl
@[simp] theorem State.setLastRead_res (v : Word) : (s.setLastRead v).res = s.res := rfl
@[simp] theorem State.setLastRead_verifyOk (v : Word) : (s.setLastRead v).verifyOk = s.verifyOk := rfl
@[simp] theorem State.setLastRead_mem (v : Word) : (s.setLastRead v).mem = s.mem := rfl
@[simp] theorem State.setLastRead_program (v : Word) : (s.setLastRead v).program = s.program := rfl
@[simp] theorem State.setLastRead_pos (v : Word) : (s.setLastRead v).pos = s.pos := rfl
@[simp] theorem State.setLastRead_lastRead (v : Word) : (s.setLastRead v).lastRead = some v := rfl
@[simp] theorem State.setLastRead_draws (v : Word) : (s.setLastRead v).draws = s.draws := rfl
@[simp] theorem State.setLastRead_space (v : Word) : (s.setLastRead v).space = s.space := rfl
@[simp] theorem State.setLastRead_admits (v : Word) (x : Nat) : (s.setLastRead v).admits x = s.admits x := rfl

/-! `State.advance` -/

@[simp] theorem State.advance_params : s.advance.params = s.params := rfl
@[simp] theorem State.advance_cfg : s.advance.cfg = s.cfg := rfl
@[simp] theorem State.advance_a : s.advance.a = s.a := rfl
@[simp] theorem State.advance_b : s.advance.b = s.b := rfl
@[simp] theorem State.advance_addr : s.advance.addr = s.addr := rfl
@[simp] theorem State.advance_len : s.advance.len = s.len := rfl
@[simp] theorem State.advance_dlen : s.advance.dlen = s.dlen := rfl
@[simp] theorem State.advance_res : s.advance.res = s.res := rfl
@[simp] theorem State.advance_verifyOk : s.advance.verifyOk = s.verifyOk := rfl
@[simp] theorem State.advance_mem : s.advance.mem = s.mem := rfl
@[simp] theorem State.advance_program : s.advance.program = s.program := rfl
@[simp] theorem State.advance_pos : s.advance.pos = s.pos + 1 := rfl
@[simp] theorem State.advance_lastRead : s.advance.lastRead = s.lastRead := rfl
@[simp] theorem State.advance_draws : s.advance.draws = s.draws := rfl
@[simp] theorem State.advance_space : s.advance.space = s.space := rfl
@[simp] theorem State.advance_admits (x : Nat) : s.advance.admits x = s.admits x := rfl

/-! `State.countDraw` -/

@[simp] theorem State.countDraw_params : s.countDraw.params = s.params := rfl
@[simp] theorem State.countDraw_cfg : s.countDraw.cfg = s.cfg := rfl
@[simp] theorem State.countDraw_a : s.countDraw.a = s.a := rfl
@[simp] theorem State.countDraw_b : s.countDraw.b = s.b := rfl
@[simp] theorem State.countDraw_addr : s.countDraw.addr = s.addr := rfl
@[simp] theorem State.countDraw_len : s.countDraw.len = s.len := rfl
@[simp] theorem State.countDraw_dlen : s.countDraw.dlen = s.dlen := rfl
@[simp] theorem State.countDraw_res : s.countDraw.res = s.res := rfl
@[simp] theorem State.countDraw_verifyOk : s.countDraw.verifyOk = s.verifyOk := rfl
@[simp] theorem State.countDraw_mem : s.countDraw.mem = s.mem := rfl
@[simp] theorem State.countDraw_program : s.countDraw.program = s.program := rfl
@[simp] theorem State.countDraw_pos : s.countDraw.pos = s.pos := rfl
@[simp] theorem State.countDraw_lastRead : s.countDraw.lastRead = s.lastRead := rfl
@[simp] theorem State.countDraw_draws : s.countDraw.draws = s.draws + 1 := rfl
@[simp] theorem State.countDraw_space : s.countDraw.space = s.space := rfl
@[simp] theorem State.countDraw_admits (x : Nat) : s.countDraw.admits x = s.admits x := rfl

/-! `resetEcrc` and `releaseContext` -/

@[simp] theorem resetEcrc_params : (resetEcrc s).params = s.params := rfl
@[simp] theorem resetEcrc_cfg : (resetEcrc s).cfg = Cfg.empty := rfl
@[simp] theorem resetEcrc_a : (resetEcrc s).a = 0 := rfl
@[simp] theorem resetEcrc_b : (resetEcrc s).b = 0 := rfl
@[simp] theorem resetEcrc_addr : (resetEcrc s).addr = 0 := rfl
@[simp] theorem resetEcrc_len : (resetEcrc s).len = 0 := rfl
@[simp] theorem resetEcrc_dlen : (resetEcrc s).dlen = 0 := rfl
@[simp] theorem resetEcrc_res : (resetEcrc s).res = 0 := rfl
@[simp] theorem resetEcrc_verifyOk : (resetEcrc s).verifyOk = false := rfl
@[simp] theorem resetEcrc_mem : (resetEcrc s).mem = s.mem := rfl
@[simp] theorem resetEcrc_program : (resetEcrc s).program = s.program := rfl
@[simp] theorem resetEcrc_pos : (resetEcrc s).pos = s.pos := rfl
@[simp] theorem resetEcrc_lastRead : (resetEcrc s).lastRead = s.lastRead := rfl
@[simp] theorem resetEcrc_draws : (resetEcrc s).draws = s.draws := rfl

@[simp] theorem releaseContext_params : (releaseContext s).params = s.params := rfl
@[simp] theorem releaseContext_cfg : (releaseContext s).cfg = Cfg.empty := rfl
@[simp] theorem releaseContext_a : (releaseContext s).a = s.a := rfl
@[simp] theorem releaseContext_b : (releaseContext s).b = s.b := rfl
@[simp] theorem releaseContext_addr : (releaseContext s).addr = s.addr := rfl
@[simp] theorem releaseContext_len : (releaseContext s).len = s.len := rfl
@[simp] theorem releaseContext_dlen : (releaseContext s).dlen = s.dlen := rfl
@[simp] theorem releaseContext_res : (releaseContext s).res = s.res := rfl
@[simp] theorem releaseContext_verifyOk : (releaseContext s).verifyOk = s.verifyOk := rfl
@[simp] theorem releaseContext_mem : (releaseContext s).mem = s.mem := rfl
@[simp] theorem releaseContext_program : (releaseContext s).program = s.program := rfl
@[simp] theorem releaseContext_pos : (releaseContext s).pos = s.pos := rfl
@[simp] theorem releaseContext_lastRead : (releaseContext s).lastRead = s.lastRead := rfl
@[simp] theorem releaseContext_draws : (releaseContext s).draws = s.draws := rfl

/-! `State.setVerdict` -/

@[simp] theorem State.setVerdict_params (v : Bool) : (s.setVerdict v).params = s.params := rfl
@[simp] theorem State.setVerdict_cfg (v : Bool) : (s.setVerdict v).cfg = s.cfg := rfl
@[simp] theorem State.setVerdict_a (v : Bool) : (s.setVerdict v).a = s.a := rfl
@[simp] theorem State.setVerdict_b (v : Bool) : (s.setVerdict v).b = s.b := rfl
@[simp] theorem State.setVerdict_addr (v : Bool) : (s.setVerdict v).addr = s.addr := rfl
@[simp] theorem State.setVerdict_len (v : Bool) : (s.setVerdict v).len = s.len := rfl
@[simp] theorem State.setVerdict_dlen (v : Bool) : (s.setVerdict v).dlen = s.dlen := rfl
@[simp] theorem State.setVerdict_res (v : Bool) : (s.setVerdict v).res = bitAt v 0 := rfl
@[simp] theorem State.setVerdict_verifyOk (v : Bool) : (s.setVerdict v).verifyOk = v := rfl
@[simp] theorem State.setVerdict_mem (v : Bool) : (s.setVerdict v).mem = s.mem := rfl
@[simp] theorem State.setVerdict_program (v : Bool) : (s.setVerdict v).program = s.program := rfl
@[simp] theorem State.setVerdict_pos (v : Bool) : (s.setVerdict v).pos = s.pos := rfl
@[simp] theorem State.setVerdict_lastRead (v : Bool) : (s.setVerdict v).lastRead = s.lastRead := rfl
@[simp] theorem State.setVerdict_draws (v : Bool) : (s.setVerdict v).draws = s.draws := rfl

/-! The state after reset -/

@[simp] theorem State.resetWith_params (p : Params) : (State.resetWith p).params = p := rfl
@[simp] theorem State.resetWith_cfg (p : Params) : (State.resetWith p).cfg = Cfg.empty := rfl
@[simp] theorem State.resetWith_a (p : Params) : (State.resetWith p).a = 0 := rfl
@[simp] theorem State.resetWith_b (p : Params) : (State.resetWith p).b = 0 := rfl
@[simp] theorem State.resetWith_addr (p : Params) : (State.resetWith p).addr = 0 := rfl
@[simp] theorem State.resetWith_len (p : Params) : (State.resetWith p).len = 0 := rfl
@[simp] theorem State.resetWith_dlen (p : Params) : (State.resetWith p).dlen = 0 := rfl
@[simp] theorem State.resetWith_res (p : Params) : (State.resetWith p).res = 0 := rfl
@[simp] theorem State.resetWith_verifyOk (p : Params) : (State.resetWith p).verifyOk = false := rfl
@[simp] theorem State.resetWith_mem (p : Params) : (State.resetWith p).mem = [] := rfl
@[simp] theorem State.resetWith_program (p : Params) : (State.resetWith p).program = [] := rfl
@[simp] theorem State.resetWith_pos (p : Params) : (State.resetWith p).pos = 0 := rfl
@[simp] theorem State.resetWith_lastRead (p : Params) : (State.resetWith p).lastRead = none := rfl
@[simp] theorem State.resetWith_draws (p : Params) : (State.resetWith p).draws = 0 := rfl

end Sys2Proof.Machine
end

