-- ==== Sys2Proof/Laws/Memory.lean ====
section
/-! SUPPORT. What the memory operations can do: reading after writing, the canonical form kept by every write, and one
lemma per operation over bytes, strings of bytes and names (spec/20_memory.md R51 to R57; spec/41_resolver.md R113). -/

namespace Sys2Proof.Machine

/-! `Memory.get` and `Memory.set` -/

@[simp] theorem Memory.get_nil (a : Nat) : Memory.get [] a = Config.unwrittenByte := rfl

theorem Memory.get_cons (c : Host.Cell) (m : Memory) (a : Nat) :
    Memory.get (c :: m) a = if c.1 = a then c.2 else Memory.get m a := rfl

/-- Memory that lists only addresses above `a` reads as unwritten at `a`. -/
theorem Memory.get_of_all_above {m : Memory} {a : Nat} (h : ∀ c ∈ m, a < c.1) :
    m.get a = Config.unwrittenByte := by
  induction m with
  | nil => rfl
  | cons c m ih =>
    have hc : a < c.1 := h c (by simp)
    rw [Memory.get_cons, if_neg (by omega)]
    exact ih fun d hd => h d (by simp [hd])

/-- A write leaves every other byte alone. -/
theorem Memory.get_set_ne (m : Memory) {a x : Nat} (v : Byte) (h : x ≠ a) : (Memory.set m a v).get x = m.get x := by
  induction m with
  | nil =>
    simp only [Memory.set]
    split
    · rfl
    · rw [Memory.get_cons, if_neg (by simpa using h.symm)]
  | cons c m ih =>
    simp only [Memory.set]
    split
    · split
      · rfl
      · rw [Memory.get_cons, if_neg (by simpa using h.symm)]
    · split
      · rename_i hac
        split
        · rw [Memory.get_cons, if_neg (by omega)]
        · rw [Memory.get_cons, Memory.get_cons, if_neg (by simpa using h.symm), if_neg (by omega)]
      · rw [Memory.get_cons, Memory.get_cons, ih]

/-- A byte written to canonical memory is read back. -/
theorem Memory.get_set_eq {m : Memory} (hm : m.wf) (a : Nat) (v : Byte) : (Memory.set m a v).get a = v := by
  induction m with
  | nil =>
    simp only [Memory.set]
    split
    · simp_all
    · simp [Memory.get_cons]
  | cons c m ih =>
    obtain ⟨hp, hn⟩ := hm
    rw [List.pairwise_cons] at hp
    have above : ∀ d ∈ m, c.1 < d.1 := hp.1
    have hm' : Memory.wf m := ⟨hp.2, fun d hd => hn d (by simp [hd])⟩
    simp only [Memory.set]
    split
    · rename_i hac
      split
      · rename_i hv
        rw [hv]
        refine Memory.get_of_all_above fun d hd => ?_
        rcases List.mem_cons.mp hd with rfl | hd
        · exact hac
        · exact hac.trans (above d hd)
      · simp [Memory.get_cons]
    · split
      · rename_i hac
        split
        · rename_i hv
          rw [hv]
          exact Memory.get_of_all_above fun d hd => by rw [hac]; exact above d hd
        · simp [Memory.get_cons]
      · rename_i h1 h2
        rw [Memory.get_cons, if_neg (by omega)]
        exact ih hm'

/-- The addresses a write lists: those listed before, and the one written. -/
theorem Memory.mem_set {m : Memory} {a : Nat} {v : Byte} {c : Host.Cell} (h : c ∈ Memory.set m a v) :
    c ∈ m ∨ (c = (a, v) ∧ v ≠ Config.unwrittenByte) := by
  induction m with
  | nil =>
    simp only [Memory.set] at h
    split at h
    · simp at h
    · exact .inr ⟨by simpa using h, ‹_›⟩
  | cons d m ih =>
    simp only [Memory.set] at h
    split at h
    · split at h
      · exact .inl h
      · rcases List.mem_cons.mp h with rfl | h
        · exact .inr ⟨rfl, ‹_›⟩
        · exact .inl h
    · split at h
      · split at h
        · exact .inl (by simp [h])
        · rcases List.mem_cons.mp h with rfl | h
          · exact .inr ⟨rfl, ‹_›⟩
          · exact .inl (by simp [h])
      · rcases List.mem_cons.mp h with rfl | h
        · exact .inl (by simp)
        · rcases ih h with h | h
          · exact .inl (by simp [h])
          · exact .inr h

/-- A write keeps the canonical form. -/
theorem Memory.set_wf {m : Memory} (hm : m.wf) (a : Nat) (v : Byte) : (Memory.set m a v).wf := by
  refine ⟨?_, fun c hc => ?_⟩
  · have hn := hm.1
    clear hm
    induction m with
    | nil => simp only [Memory.set]; split <;> simp
    | cons c m ih =>
      have hp := List.pairwise_cons.mp hn
      simp only [Memory.set]
      split
      · rename_i hac
        split
        · exact hn
        · refine List.pairwise_cons.mpr ⟨fun d hd => ?_, hn⟩
          rcases List.mem_cons.mp hd with rfl | hd
          · exact hac
          · exact hac.trans (hp.1 d hd)
      · split
        · rename_i hac
          split
          · exact hp.2
          · exact List.pairwise_cons.mpr ⟨fun d hd => by simpa [hac] using hp.1 d hd, hp.2⟩
        · rename_i h1 h2
          refine List.pairwise_cons.mpr ⟨fun d hd => ?_, ih hp.2⟩
          rcases Memory.mem_set hd with hd | ⟨rfl, _⟩
          · exact hp.1 d hd
          · show c.1 < a
            omega
  · rcases Memory.mem_set hc with hc | ⟨rfl, hv⟩
    · exact hm.2 c hc
    · exact hv

/-! One byte -/

theorem readByte_ok_iff {s : State} {a : Nat} {v : Byte} :
    readByte s a = .ok v ↔ s.admits a = true ∧ s.mem.get a = v := by
  unfold readByte
  split <;> simp_all

theorem readByte_error {s : State} {a : Nat} {f : Fault} (h : readByte s a = .error f) :
    f = .notAdmitted ∧ s.admits a = false := by
  unfold readByte at h
  split at h <;> simp_all

theorem writeByte_ok_iff {s t : State} {a : Nat} {v : Byte} :
    writeByte s a v = .ok t ↔ s.admits a = true ∧ t = s.setMem (s.mem.set a v) := by
  unfold writeByte
  split
  · rename_i ha
    rw [Except.ok.injEq]
    exact ⟨fun e => ⟨ha, e.symm⟩, fun e => e.2.symm⟩
  · simp_all

theorem writeByte_error {s : State} {a : Nat} {v : Byte} {f : Fault} (h : writeByte s a v = .error f) :
    f = .notAdmitted ∧ s.admits a = false := by
  unfold writeByte at h
  split at h <;> simp_all

/-- An admitted address is an address of the space (R51). -/
theorem State.admits_lt {s : State} {a : Nat} (h : s.admits a = true) : a < s.space := by
  simp only [State.admits, Bool.and_eq_true, decide_eq_true_eq] at h
  exact h.1

/-! Strings of bytes -/

@[simp] theorem State.bytesAt_zero (s : State) (a : Nat) : s.bytesAt a 0 = [] := rfl

@[simp] theorem State.bytesAt_length (s : State) (a k : Nat) : (s.bytesAt a k).length = k := by
  simp [State.bytesAt]

theorem State.bytesAt_succ (s : State) (a k : Nat) :
    s.bytesAt a (k + 1) = s.mem.get a :: s.bytesAt (a + 1) k := by
  simp only [State.bytesAt, List.range_succ_eq_map, List.map_cons, List.map_map, Nat.add_zero]
  congr 1
  refine List.map_congr_left fun i _ => ?_
  simp only [Function.comp_apply, Nat.succ_eq_add_one]
  congr 1
  omega

theorem State.admitsRange_succ {s : State} {a k : Nat} :
    s.AdmitsRange a (k + 1) ↔ s.admits a = true ∧ s.AdmitsRange (a + 1) k := by
  constructor
  · intro h
    refine ⟨by simpa using h 0 (by omega), fun i hi => ?_⟩
    rw [show a + 1 + i = a + (i + 1) by omega]
    exact h (i + 1) (by omega)
  · rintro ⟨h0, h⟩ i hi
    cases i with
    | zero => simpa using h0
    | succ i =>
      rw [show a + (i + 1) = a + 1 + i by omega]
      exact h i (by omega)

/-- What `readBytes` can do: it answers the bytes memory holds, exactly when every address is admitted. -/
theorem readBytes_ok_iff {s : State} {a k : Nat} {vs : List Byte} :
    readBytes s a k = .ok vs ↔ s.AdmitsRange a k ∧ vs = s.bytesAt a k := by
  induction k generalizing a vs with
  | zero =>
    rw [readBytes, State.bytesAt_zero, Except.ok.injEq]
    exact ⟨fun h => ⟨fun i hi => absurd hi (by omega), h.symm⟩, fun h => h.2.symm⟩
  | succ k ih =>
    rw [readBytes, State.admitsRange_succ, State.bytesAt_succ]
    rcases hb : readByte s a with f | v
    · have := (readByte_error hb).2
      simp [this]
    · obtain ⟨ha, rfl⟩ := readByte_ok_iff.mp hb
      rcases hr : readBytes s (a + 1) k with f | ws
      · have hno : ¬ s.AdmitsRange (a + 1) k := fun h => by
          have := ih.mpr ⟨h, rfl⟩
          rw [this] at hr
          cases hr
        simp [hno]
      · obtain ⟨h, rfl⟩ := ih.mp hr
        rw [Except.ok.injEq]
        exact ⟨fun e => ⟨⟨ha, h⟩, e.symm⟩, fun e => e.2.symm⟩

/-- `readBytes` stops on an address memory does not admit, and on nothing else. -/
theorem readBytes_error {s : State} {a k : Nat} {f : Fault} (h : readBytes s a k = .error f) : f = .notAdmitted := by
  induction k generalizing a with
  | zero => simp [readBytes] at h
  | succ k ih =>
    rw [readBytes] at h
    rcases hb : readByte s a with g | v
    · rw [hb] at h
      cases h
      exact (readByte_error hb).1
    · rcases hr : readBytes s (a + 1) k with g | ws
      · rw [hb, hr] at h
        cases h
        exact ih hr
      · rw [hb, hr] at h
        cases h

/-- What `writeBytes` can do when it answers: it changes memory alone, every byte outside the range reads as before, and a
canonical memory stays canonical and reads the bytes written. -/
theorem writeBytes_ok {s t : State} {a : Nat} {vs : List Byte} (h : writeBytes s a vs = .ok t) :
    s.AdmitsRange a vs.length ∧ t = s.setMem t.mem ∧
      (∀ x, (x < a ∨ a + vs.length ≤ x) → t.mem.get x = s.mem.get x) ∧
      (s.mem.wf → t.mem.wf ∧ ∀ i (hi : i < vs.length), t.mem.get (a + i) = vs[i]) := by
  induction vs generalizing s a with
  | nil =>
    cases h
    exact ⟨fun i hi => absurd hi (by simp), rfl, fun x _ => rfl, fun hm => ⟨hm, fun i hi => absurd hi (by simp)⟩⟩
  | cons v vs ih =>
    rw [writeBytes] at h
    rcases hw : writeByte s a v with g | u
    · rw [hw] at h
      cases h
    · rw [hw] at h
      obtain ⟨ha, rfl⟩ := writeByte_ok_iff.mp hw
      obtain ⟨h1, h2, h3, h4⟩ := ih h
      refine ⟨?_, ?_, fun x hx => ?_, fun hm => ?_⟩
      · rw [List.length_cons, State.admitsRange_succ]
        exact ⟨ha, h1⟩
      · rw [h2]; rfl
      · rw [List.length_cons] at hx
        rw [h3 x (by omega)]
        exact Memory.get_set_ne _ _ (by omega)
      · obtain ⟨w, hr⟩ := h4 (Memory.set_wf hm a v)
        refine ⟨w, fun i hi => ?_⟩
        cases i with
        | zero =>
          rw [Nat.add_zero, h3 a (by omega)]
          exact Memory.get_set_eq hm a v
        | succ i =>
          rw [show a + (i + 1) = a + 1 + i by omega]
          exact hr i (by simpa using hi)

/-- `writeBytes` answers whenever every address is admitted. -/
theorem writeBytes_of_admits {s : State} {a : Nat} {vs : List Byte} (h : s.AdmitsRange a vs.length) :
    ∃ t, writeBytes s a vs = .ok t := by
  induction vs generalizing s a with
  | nil => exact ⟨s, rfl⟩
  | cons v vs ih =>
    rw [List.length_cons, State.admitsRange_succ] at h
    rw [writeBytes, writeByte_ok_iff.mpr ⟨h.1, rfl⟩]
    exact ih h.2

/-- `writeBytes` stops on an address memory does not admit, and on nothing else. -/
theorem writeBytes_error {s : State} {a : Nat} {vs : List Byte} {f : Fault} (h : writeBytes s a vs = .error f) :
    f = .notAdmitted := by
  induction vs generalizing s a with
  | nil => cases h
  | cons v vs ih =>
    rw [writeBytes] at h
    rcases hw : writeByte s a v with g | u
    · rw [hw] at h
      cases h
      exact (writeByte_error hw).1
    · rw [hw] at h
      exact ih h

/-! Names -/

/-- What `readNameFrom` can do when it answers. -/
theorem readNameFrom_ok {s : State} {a k : Nat} {nm : Name} (h : readNameFrom s a k = .ok nm) :
    nm.length < k ∧ s.NameAt a nm := by
  induction k generalizing a nm with
  | zero => cases h
  | succ k ih =>
    rw [readNameFrom] at h
    rcases hb : readByte s a with g | v
    · rw [hb] at h
      cases h
    · obtain ⟨ha, rfl⟩ := readByte_ok_iff.mp hb
      rw [hb] at h
      dsimp only at h
      split at h
      · rename_i h0
        cases h
        exact ⟨by simp, fun i hi => by
          have : i = 0 := by simpa using hi
          simpa [this] using ha, by simp [State.bytesAt], by simp, by simpa using h0⟩
      · rename_i h0
        rcases hr : readNameFrom s (a + 1) k with g | ws
        · rw [hr] at h
          cases h
        · rw [hr] at h
          cases h
          obtain ⟨hl, h1, h2, h3, h4⟩ := ih hr
          refine ⟨by simpa using hl, ?_, ?_, ?_, ?_⟩
          · rw [List.length_cons, State.admitsRange_succ]
            exact ⟨ha, h1⟩
          · rw [List.length_cons, State.bytesAt_succ, h2]
          · intro v hv
            rcases List.mem_cons.mp hv with rfl | hv
            · exact h0
            · exact h3 v hv
          · rw [List.length_cons, show a + (ws.length + 1) = a + 1 + ws.length by omega]
            exact h4

/-- `readNameFrom` answers the name memory holds, if it ends before the top. -/
theorem readNameFrom_of_nameAt {s : State} {a k : Nat} {nm : Name} (hl : nm.length < k) (h : s.NameAt a nm) :
    readNameFrom s a k = .ok nm := by
  induction nm generalizing a k with
  | nil =>
    obtain ⟨k, rfl⟩ : ∃ j, k = j + 1 := ⟨k - 1, by simp at hl; omega⟩
    obtain ⟨h1, -, -, h4⟩ := h
    have ha := h1 0 (by simp)
    rw [readNameFrom, readByte_ok_iff.mpr ⟨by simpa using ha, rfl⟩]
    simp only [List.length_nil, Nat.add_zero] at h4
    dsimp only
    rw [if_pos h4]
  | cons v nm ih =>
    obtain ⟨k, rfl⟩ : ∃ j, k = j + 1 := ⟨k - 1, by simp at hl; omega⟩
    obtain ⟨h1, h2, h3, h4⟩ := h
    rw [List.length_cons, State.admitsRange_succ] at h1
    rw [List.length_cons, State.bytesAt_succ, List.cons.injEq] at h2
    rw [List.length_cons, show a + (nm.length + 1) = a + 1 + nm.length by omega] at h4
    have hv : v ≠ 0 := h3 v (by simp)
    have hrest := ih (a := a + 1) (k := k) (by simpa using hl)
      ⟨h1.2, h2.2, fun w hw => h3 w (by simp [hw]), h4⟩
    rw [readNameFrom, readByte_ok_iff.mpr ⟨h1.1, h2.1⟩]
    dsimp only
    rw [if_neg hv, hrest]

/-- `readNameFrom` stops on an address memory does not admit or at the top of the space. -/
theorem readNameFrom_error {s : State} {a k : Nat} {f : Fault} (h : readNameFrom s a k = .error f) :
    f = .notAdmitted ∨ f = .unterminatedName := by
  induction k generalizing a with
  | zero =>
    cases h
    exact .inr rfl
  | succ k ih =>
    rw [readNameFrom] at h
    rcases hb : readByte s a with g | v
    · rw [hb] at h
      cases h
      exact .inl (readByte_error hb).1
    · rw [hb] at h
      dsimp only at h
      split at h
      · cases h
      · rcases hr : readNameFrom s (a + 1) k with g | ws
        · rw [hr] at h
          cases h
          exact ih hr
        · rw [hr] at h
          cases h

/-- What `readName` can do (R113): it answers exactly the name memory holds at `a`. -/
theorem readName_ok_iff {s : State} {a : Nat} {nm : Name} : readName s a = .ok nm ↔ s.NameAt a nm := by
  constructor
  · exact fun h => (readNameFrom_ok h).2
  · intro h
    refine readNameFrom_of_nameAt ?_ h
    have := State.admits_lt (h.1 nm.length (by simp))
    omega

end Sys2Proof.Machine
end

