-- ==== Sys2Proof/Laws/Ops.lean ====
section
/-! SUPPORT. What the shared operations over outcomes, operands, flags, bits and bytes can do: one lemma each, which the
proofs cite instead of unfolding the operation. -/

namespace Sys2Proof

/-! Widths -/

theorem Width.bits_le (w : Width) : w.bits ≤ 64 := by cases w <;> decide

theorem Width.bits_ge (w : Width) : 8 ≤ w.bits := by cases w <;> decide

theorem Width.bits_eq (w : Width) : w.bits = 8 * w.bytes := by cases w <;> rfl

theorem Width.bits_div (w : Width) : w.bits / 8 = w.bytes := by cases w <;> rfl

end Sys2Proof

namespace Sys2Proof.Machine

/-! Outcomes -/

@[simp] theorem raise_ne_next (f : Fault) (t : State) : raise f ≠ .next t := by simp [raise]

@[simp] theorem raise_eq_fault (f g : Fault) : raise f = .fault g ↔ f = g := by simp [raise]

@[simp] theorem raise_ne_refused (f : Fault) (r : Refusal) : raise f ≠ .refused r := by simp [raise]

@[simp] theorem settle_eq_next (e : Except Fault State) (t : State) : settle e = .next t ↔ e = .ok t := by
  cases e <;> simp [settle]

@[simp] theorem settle_eq_fault (e : Except Fault State) (f : Fault) : settle e = .fault f ↔ e = .error f := by
  cases e <;> simp [settle]

@[simp] theorem settle_ne_refused (e : Except Fault State) (r : Refusal) : settle e ≠ .refused r := by
  cases e <;> simp [settle]

/-! Operands -/

@[simp] theorem zext64_toNat {n : Nat} (v : BitVec n) (h : n ≤ 64) : (zext64 v).toNat = v.toNat := by
  have : v.toNat < 2 ^ 64 := v.isLt.trans_le (Nat.pow_le_pow_right (by decide) h)
  rw [zext64, BitVec.toNat_setWidth, Nat.mod_eq_of_lt this]

/-- A widened W-bit value has zeros above bit W-1 (R17). -/
theorem zext64_fits (w : Width) (v : BitVec w.bits) : FitsWidth w (zext64 v) := by
  rw [FitsWidth, zext64_toNat v w.bits_le]
  exact v.isLt

/-- Cutting a widened value back to its width gives the value. -/
@[simp] theorem truncTo_zext64 {n : Nat} (v : BitVec n) (h : n ≤ 64) : truncTo n (zext64 v) = v := by
  simp [truncTo, zext64, BitVec.setWidth_setWidth_of_le, h]

/-- Widening a cut W-bit quantity gives the quantity (R17). -/
theorem zext64_truncTo (w : Width) {v : Word} (h : FitsWidth w v) : zext64 (truncTo w.bits v) = v := by
  apply BitVec.eq_of_toNat_eq
  rw [zext64_toNat _ w.bits_le]
  simp [truncTo, BitVec.toNat_setWidth, Nat.mod_eq_of_lt h]

/-- `trunc_AW` gives an AW-bit value when AW is at most 64 (R24). -/
theorem State.truncAddr_lt {s : State} (v : Word) (h : s.params.addrBits ≤ 64) : (s.truncAddr v).toNat < s.space := by
  have hs : s.space ≤ 2 ^ 64 := Nat.pow_le_pow_right (by decide) h
  have hp : 0 < s.space := Nat.pow_pos (by decide)
  have := Nat.mod_lt v.toNat hp
  simp only [State.truncAddr, BitVec.toNat_ofNat]
  rw [Nat.mod_eq_of_lt (by omega)]
  exact this

/-- The buffer is absent exactly when ADDR is 0 (R53). -/
theorem State.bufAddr_eq_zero (s : State) : s.bufAddr = 0 ↔ s.addr = 0 := by
  rw [State.bufAddr, ← BitVec.toNat_inj]
  simp

/-- The length is 0 exactly when LEN is. -/
theorem State.bufLen_eq_zero (s : State) : s.bufLen = 0 ↔ s.len = 0 := by
  rw [State.bufLen, ← BitVec.toNat_inj]
  simp

/-- The name operand as a number: A cut to AW bits (R77). -/
theorem State.nameAddr_eq (s : State) : s.nameAddr = s.a.toNat % 2 ^ s.params.addrBits := by
  rw [State.nameAddr, State.truncAddr, BitVec.toNat_ofNat, State.space]
  exact Nat.mod_eq_of_lt ((Nat.mod_le _ _).trans_lt s.a.isLt)

@[simp] theorem absent_eq_true (a : Nat) : absent a = true ↔ a = 0 := by simp [absent]

/-! Flags -/

theorem bitAt_getLsbD (v : Bool) (i j : Nat) (h : i < 64) : (bitAt v i).getLsbD j = (v && decide (j = i)) := by
  cases v
  · simp [bitAt]
  · rw [bitAt, if_pos rfl, BitVec.getLsbD_shiftLeft, Bool.true_and]
    rcases lt_trichotomy j i with hj | rfl | hj
    · have : j ≠ i := by omega
      simp [hj, this]
    · simp [h]
    · have h1 : j ≠ i := by omega
      have h2 : j - i ≠ 0 := by omega
      simp [h1, h2]

/-! Bits and bytes -/

@[simp] theorem reflect_getLsbD {n : Nat} (v : BitVec n) (i : Nat) :
    (reflect v).getLsbD i = (decide (i < n) && v.getLsbD (n - 1 - i)) := by
  rw [reflect, BitVec.getLsbD_reverse, BitVec.getMsbD_eq_getLsbD]

@[simp] theorem reflect_reflect {n : Nat} (v : BitVec n) : reflect (reflect v) = v := BitVec.reverse_reverse_eq

@[simp] theorem bytesOf_length {n : Nat} (v : BitVec n) (be : Bool) : (bytesOf v be).length = n / 8 := by
  simp [bytesOf]

theorem bytesOf_getElem {n : Nat} (v : BitVec n) (be : Bool) (i : Nat) (h : i < (bytesOf v be).length) :
    (bytesOf v be)[i] = byteOf v (if be then n / 8 - 1 - i else i) := by
  simp [bytesOf]

/-- What `insertBytes` can do when it answers (R103): it changes memory alone, inside `[p, p + n/8)` alone, and canonical memory
stays canonical and reads the value's bytes in the order asked for. -/
theorem insertBytes_ok {n : Nat} {s t : State} {p : Nat} {v : BitVec n} {be : Bool} (h : insertBytes s p v be = .ok t) :
    s.AdmitsRange p (n / 8) ∧ t = s.setMem t.mem ∧
      (∀ x, (x < p ∨ p + n / 8 ≤ x) → t.mem.get x = s.mem.get x) ∧
      (s.mem.wf → t.mem.wf ∧
        ∀ i < n / 8, t.mem.get (p + i) = byteOf v (if be then n / 8 - 1 - i else i)) := by
  obtain ⟨h1, h2, h3, h4⟩ := writeBytes_ok h
  rw [bytesOf_length] at h1 h3
  refine ⟨h1, h2, h3, fun hm => ⟨(h4 hm).1, fun i hi => ?_⟩⟩
  rw [(h4 hm).2 i (by simpa using hi), bytesOf_getElem]

/-- `insertBytes` answers whenever memory admits the range. -/
theorem insertBytes_of_admits {n : Nat} {s : State} {p : Nat} (v : BitVec n) (be : Bool) (h : s.AdmitsRange p (n / 8)) :
    ∃ t, insertBytes s p v be = .ok t :=
  writeBytes_of_admits (by rwa [bytesOf_length])

theorem insertBytes_error {n : Nat} {s : State} {p : Nat} {v : BitVec n} {be : Bool} {f : Fault}
    (h : insertBytes s p v be = .error f) : f = .notAdmitted :=
  writeBytes_error h

end Sys2Proof.Machine
end

