-- ==== Sys2Proof/Laws/Kernel.lean ====
section
/-! SUPPORT. What the kernel, its fold over a message and the table generator give, one lemma each
(spec/42_kernel.md, spec/43_table_generator.md, spec/44_whole_buffer.md R170, R171). -/

namespace Sys2Proof.Machine

variable {n : Nat}

@[simp] theorem kernel_none (k : Datapath n) (r : BitVec n) (b : Byte) (f l : Bool) :
    kernel k none r b f l = bitwisePartial k r b f l := rfl

@[simp] theorem kernel_some (k : Datapath n) (t : Byte → BitVec n) (r : BitVec n) (b : Byte) (f l : Bool) :
    kernel k (some t) r b f l = tablePartial k t r b f l := rfl

@[simp] theorem foldMessage_nil (k : Datapath n) (t : Option (Byte → BitVec n)) (f : Bool) (r : BitVec n) :
    foldMessage k t f r [] = r := rfl

theorem foldMessage_cons (k : Datapath n) (t : Option (Byte → BitVec n)) (f : Bool) (r : BitVec n) (b : Byte)
    (bs : List Byte) :
    foldMessage k t f r (b :: bs) = foldMessage k t false (kernel k t r b f bs.isEmpty) bs := rfl

@[simp] theorem Cfg.lookup_eq_none (c : Cfg) (n : Nat) : c.lookup n = none ↔ c.table = none := by
  simp [Cfg.lookup]

theorem Cfg.lookup_of_none {c : Cfg} (h : c.table = none) : c.lookup n = none := by simp [h]

theorem Cfg.lookup_of_some {c : Cfg} {t : Table} (h : c.table = some t) : c.lookup n = some (t.entry n) := by
  simp [Cfg.lookup, h]

@[simp] theorem Cfg.datapath_empty (n : Nat) :
    Cfg.empty.datapath n = { poly := 0, xorOut := 0, refIn := false, refOut := false } := by
  simp [Cfg.datapath, Cfg.empty, truncTo]

/-- The table is no part of the datapath fields (R164). -/
@[simp] theorem Cfg.withTable_datapath (c : Cfg) (n m : Nat) : (c.withTable n).datapath m = c.datapath m := rfl

/-- Entry i of `buildTable` (R160). -/
theorem buildTable_getElem (k : Datapath n) (i : Nat) (h : i < 256) :
    (buildTable k)[i] = zext64 (tableEntry k (BitVec.ofNat 8 i)) := by
  simp [buildTable]

/-- The table path reads from a built table what the generator computed (R160). -/
theorem buildTable_entry (k : Datapath n) (h : n ≤ 64) (i : Byte) : (buildTable k).entry n i = tableEntry k i := by
  rw [Table.entry, buildTable_getElem k i.toNat i.isLt, truncTo_zext64 _ h, BitVec.ofNat_toNat, BitVec.setWidth_eq]

/-- Every entry of a built table is a W-bit quantity (R17). -/
theorem buildTable_fits (w : Width) (k : Datapath w.bits) (i : Fin 256) : FitsWidth w (buildTable k)[i] := by
  rw [Fin.getElem_fin, buildTable_getElem k i.val i.isLt]
  exact zext64_fits w _

@[simp] theorem State.crc_nil (s : State) :
    s.crc [] = zeroLength s.params.zeroLen (s.cfg.datapath s.w) (truncTo s.w s.cfg.init) := rfl

theorem State.crc_cons (s : State) (b : Byte) (bs : List Byte) :
    s.crc (b :: bs) = foldMessage (s.cfg.datapath s.w) (s.cfg.lookup s.w) true (truncTo s.w s.cfg.init) (b :: bs) := rfl

/-- The CRC depends on CFG and the parameters alone (R33). -/
@[simp] theorem State.crc_setMem (s : State) (m : Memory) (msg : List Byte) : (s.setMem m).crc msg = s.crc msg := rfl

/-- The fold over a message is the loop over its indices (R56, R170). -/
theorem foldMessage_eq_foldl (k : Datapath n) (t : Option (Byte → BitVec n)) (g : Nat → Byte) (first : Bool) (m : Nat)
    (r : BitVec n) :
    foldMessage k t first r ((List.range m).map g) =
      (List.range m).foldl (fun r i => kernel k t r (g i) (first && i == 0) (i == m - 1)) r := by
  induction m generalizing g first r with
  | zero => rfl
  | succ m ih =>
    rw [List.range_succ_eq_map, List.map_cons, foldMessage_cons, List.foldl_cons, List.map_map, List.foldl_map]
    have hlast : (List.map (g ∘ Nat.succ) (List.range m)).isEmpty = (0 == m + 1 - 1) := by
      cases m <;> simp [List.range_succ_eq_map]
    rw [hlast, ih (g ∘ Nat.succ) false]
    simp only [Nat.add_sub_cancel, Bool.false_and, Function.comp_apply, beq_self_eq_true, Bool.and_true]
    refine List.foldl_ext _ _ _ fun r i hi => ?_
    have hi : i < m := by simpa using hi
    have hm : (i == m - 1) = (i.succ == m) := by
      rw [Bool.eq_iff_iff]
      simp only [beq_iff_eq]
      omega
    rw [hm]
    simp

/-- The CRC of the bytes memory holds is the loop of R170. -/
theorem State.crc_bytesAt (s : State) (base len : Nat) (h : len ≠ 0) : s.crc (s.bytesAt base len) = s.loopCrc base len := by
  obtain ⟨m, rfl⟩ := Nat.exists_eq_succ_of_ne_zero h
  rw [State.bytesAt_succ, State.crc_cons, ← State.bytesAt_succ, State.bytesAt, foldMessage_eq_foldl]
  simp only [Bool.true_and]
  rfl

end Sys2Proof.Machine
end

