-- ==== Sys2Proof/Laws/Commands.lean ====
section
/-! SUPPORT. What each command can do, one inversion lemma per meaning (if it answers, then one of these cases holds), and what
the helpers of RESOLVE and of the whole-buffer commands give (spec/40_bit_utilities.md to spec/45_lifecycle.md). -/

namespace Sys2Proof.Machine

/-! The helper `calc` (R170) -/

/-- What `calc` can do: absent data, no bytes, or the CRC of the bytes memory holds in a range of the space. -/
theorem calcBuffer_ok {s : State} {base len : Nat} {r : BitVec s.w} (h : calcBuffer s base len = .ok r) :
    (base = 0 ∧ r = 0) ∨ (base ≠ 0 ∧ len = 0 ∧ r = s.crc []) ∨
      (base ≠ 0 ∧ len ≠ 0 ∧ base + len ≤ s.space ∧ s.AdmitsRange base len ∧ r = s.crc (s.bytesAt base len)) := by
  unfold calcBuffer at h
  split at h
  · exact .inl ⟨by simpa using ‹absent base = true›, by cases h; rfl⟩
  · rename_i hb
    have hb : base ≠ 0 := by simpa using hb
    split at h
    · exact .inr (.inl ⟨hb, ‹_›, by cases h; rfl⟩)
    · split at h
      · rename_i hl hs
        rcases hr : readBytes s base len with f | msg
        · rw [hr] at h
          cases h
        · rw [hr] at h
          obtain ⟨ha, rfl⟩ := readBytes_ok_iff.mp hr
          cases h
          exact .inr (.inr ⟨hb, hl, by simpa [State.inSpace] using hs, ha, rfl⟩)
      · cases h

theorem calcBuffer_absent (s : State) (len : Nat) : calcBuffer s 0 len = .ok 0 := rfl

theorem calcBuffer_zero {s : State} {base : Nat} (h : base ≠ 0) : calcBuffer s base 0 = .ok (s.crc []) := by
  simp [calcBuffer, absent, h]

/-- `calc` over a range of the space that memory admits is the CRC of its bytes. -/
theorem calcBuffer_of_admits {s : State} {base len : Nat} (h : base ≠ 0) (hs : base + len ≤ s.space)
    (ha : s.AdmitsRange base len) : calcBuffer s base len = .ok (s.crc (s.bytesAt base len)) := by
  rcases Nat.eq_zero_or_pos len with rfl | hl
  · simpa using calcBuffer_zero h
  · have hr : readBytes s base len = .ok (s.bytesAt base len) := readBytes_ok_iff.mpr ⟨ha, rfl⟩
    unfold calcBuffer
    rw [if_neg (by simpa using h), if_neg (by omega), if_pos (by simpa [State.inSpace] using hs), hr]

/-- A range past the top of the space faults (R54). -/
theorem calcBuffer_wrap {s : State} {base len : Nat} (h : base ≠ 0) (hl : len ≠ 0) (hs : s.space < base + len) :
    calcBuffer s base len = .error .rangeWrap := by
  unfold calcBuffer
  rw [if_neg (by simpa using h), if_neg hl, if_neg (by simpa [State.inSpace] using hs)]

theorem calcBuffer_error {s : State} {base len : Nat} {f : Fault} (h : calcBuffer s base len = .error f) :
    f = .rangeWrap ∨ f = .notAdmitted := by
  unfold calcBuffer at h
  split at h
  · cases h
  · split at h
    · cases h
    · split at h
      · rcases hr : readBytes s base len with g | msg
        · rw [hr] at h
          cases h
          exact .inr (readBytes_error hr)
        · rw [hr] at h
          cases h
      · cases h
        exact .inl rfl

/-! The helpers of RESOLVE -/

theorem findRow_eq_some {cat : List CatalogRow} {nm : Name} {row : CatalogRow} (h : findRow cat nm = some row) :
    row ∈ cat ∧ rowMatches row nm = true :=
  ⟨List.mem_of_find?_eq_some h, by simpa using List.find?_some h⟩

/-- What the table build under a draw does (R118): one draw is counted, and CFG gets its table or keeps none. -/
theorem buildUnderDraw_eq (s : State) :
    buildUnderDraw s = s.countDraw.setCfg (if s.allocOk then s.cfg.withTable s.w else s.cfg) := by
  unfold buildUnderDraw
  cases s.allocOk <;> rfl

/-- What loading by name can do: nothing, or CFG from the row found, with or without the table. -/
theorem loadByName_cases (ct : Bool) (nm : Name) (s : State) :
    (findRow s.params.catalogue nm = none ∧ loadByName ct nm s = s) ∨
    (∃ row, findRow s.params.catalogue nm = some row ∧ ct = false ∧
      loadByName ct nm s = s.setCfg (Cfg.ofRow row nm)) ∨
    (∃ row, findRow s.params.catalogue nm = some row ∧ ct = true ∧
      loadByName ct nm s =
        s.countDraw.setCfg (if s.allocOk then (Cfg.ofRow row nm).withTable s.w else Cfg.ofRow row nm)) := by
  unfold loadByName
  rcases hf : findRow s.params.catalogue nm with - | row
  · exact .inl ⟨rfl, rfl⟩
  · cases ct
    · exact .inr (.inl ⟨row, rfl, rfl, rfl⟩)
    · refine .inr (.inr ⟨row, rfl, rfl, ?_⟩)
      simp only [if_true, buildUnderDraw_eq]
      rfl

/-! The commands -/

/-- What INSERT can do when it answers (R104). -/
theorem execInsert_next {n : Width} {be : Bool} {s t : State} (h : execInsert n be s = .next t) :
    ((s.bufAddr = 0 ∨ s.bufLen < n.bytes) ∧ t = s) ∨
    (s.bufAddr ≠ 0 ∧ n.bytes ≤ s.bufLen ∧ s.bufAddr + n.bytes ≤ s.space ∧
      insertBytes s s.bufAddr (s.valueOperand n) be = .ok t) := by
  unfold execInsert at h
  split at h
  · rename_i hg
    exact .inl ⟨by simpa using hg, by cases h; rfl⟩
  · rename_i hg
    simp only [absent_eq_true, not_or, not_lt] at hg
    split at h
    · rename_i hs
      exact .inr ⟨hg.1, hg.2, by simpa [State.inSpace] using hs, by simpa using h⟩
    · simp at h

/-- What RESOLVE can do when it answers (R110). -/
theorem execResolve_next {ct : Bool} {s t : State} (h : execResolve ct s = .next t) :
    (s.nameAddr = 0 ∧ t = releaseContext s) ∨
    (s.nameAddr ≠ 0 ∧ ∃ nm, s.NameAt s.nameAddr nm ∧ t = loadByName ct nm (releaseContext s)) := by
  unfold execResolve at h
  split at h
  · exact .inl ⟨by simpa using ‹absent _ = true›, by cases h; rfl⟩
  · rename_i ha
    rcases hr : readName s s.nameAddr with f | nm
    · rw [hr] at h
      simp at h
    · rw [hr] at h
      exact .inr ⟨by simpa using ha, nm, readName_ok_iff.mp hr, by cases h; rfl⟩

/-- What CALCULATE can do when it answers (R170). -/
theorem execCalculate_next {s t : State} (h : execCalculate s = .next t) :
    ∃ r, calcBuffer s s.bufAddr s.bufLen = .ok r ∧ t = s.setRes (zext64 r) := by
  unfold execCalculate at h
  rcases hc : calcBuffer s s.bufAddr s.bufLen with f | r
  · rw [hc] at h
    simp at h
  · rw [hc] at h
    exact ⟨r, rfl, by cases h; rfl⟩

/-- What CALC_APPEND can do when it answers (R172). -/
theorem execCalcAppend_next {s t : State} (h : execCalcAppend s = .next t) :
    ((s.bufAddr = 0 ∨ s.bufLen < s.dataLen + s.wBytes) ∧ t = s) ∨
    (s.bufAddr ≠ 0 ∧ s.dataLen + s.wBytes ≤ s.bufLen ∧ s.bufAddr + (s.dataLen + s.wBytes) ≤ s.space ∧
      ∃ r, calcBuffer s s.bufAddr s.dataLen = .ok r ∧
        insertBytes s (s.bufAddr + s.dataLen) r (!s.cfg.refOut) = .ok t) := by
  unfold execCalcAppend at h
  split at h
  · rename_i hg
    exact .inl ⟨by simpa using hg, by cases h; rfl⟩
  · rename_i hg
    simp only [absent_eq_true, not_or, not_lt] at hg
    split at h
    · rename_i hs
      rcases hc : calcBuffer s s.bufAddr s.dataLen with f | r
      · rw [hc] at h
        simp at h
      · rw [hc] at h
        exact .inr ⟨hg.1, hg.2, by simpa [State.inSpace] using hs, r, rfl, by simpa using h⟩
    · simp at h

/-- What VERIFY can do when it answers (R174): a verdict, and nothing else. -/
theorem execVerify_next {s t : State} (h : execVerify s = .next t) :
    ((s.bufAddr = 0 ∨ s.bufLen < s.wBytes) ∧ t = s.setVerdict false) ∨
    (s.bufAddr ≠ 0 ∧ s.wBytes ≤ s.bufLen ∧
      ∃ r, calcBuffer s s.bufAddr s.bufLen = .ok r ∧
        t = s.setVerdict ((r ^^^ truncTo s.w s.cfg.xorOut) == truncTo s.w s.cfg.residue)) := by
  unfold execVerify at h
  split at h
  · rename_i hg
    exact .inl ⟨by simpa using hg, by cases h; rfl⟩
  · rename_i hg
    simp only [absent_eq_true, not_or, not_lt] at hg
    rcases hc : calcBuffer s s.bufAddr s.bufLen with f | r
    · rw [hc] at h
      simp at h
    · rw [hc] at h
      exact .inr ⟨hg.1, hg.2, r, rfl, by cases h; rfl⟩

end Sys2Proof.Machine
end

