-- ==== Sys2Proof/Laws/Host.lean ====
section
/-! SUPPORT. What a host action and a step can do, one inversion lemma each (spec/10_state.md R24 to R29, R40;
spec/70_reset_and_hazards.md R220). -/

namespace Sys2Proof.Machine

/-- What a write of a register can do when it answers: run a command, or store an operand (R27, R28). -/
theorem writeRegister_next {run : Word → State → Outcome} {r : Reg} {v : Word} {s t : State}
    (h : writeRegister run r v s = .next t) :
    (r = .cmd ∧ run v s = .next t) ∨ (r = .a ∧ t = s.setA v) ∨ (r = .b ∧ t = s.setB v) ∨
      (r = .addr ∧ t = s.setAddr (s.truncAddr v)) ∨ (r = .len ∧ t = s.setLen v) ∨ (r = .dlen ∧ t = s.setDlen v) := by
  cases r
  case cmd => exact .inl ⟨rfl, h⟩
  all_goals
    simp only [writeRegister, raise_ne_next, Host.Outcome.next.injEq] at h <;> simp [← h]

/-- What a read of a register can do when it answers: the host holds the value, and nothing else changes (R28). -/
theorem hostReadReg_next {offset bits : Nat} {s t : State} (h : hostReadReg offset bits s = .next t) :
    ∃ r v, selectReg offset bits = .ok r ∧ readRegister s r = .ok v ∧ t = s.setLastRead v := by
  unfold hostReadReg at h
  rcases hr : selectReg offset bits with f | r
  · rw [hr] at h
    simp at h
  · rw [hr] at h
    dsimp only at h
    rcases hv : readRegister s r with f | v
    · rw [hv] at h
      simp at h
    · rw [hv] at h
      exact ⟨r, v, rfl, hv, by cases h; rfl⟩

/-- What an action of the host can do when it answers. -/
theorem hostAct_next {run : Word → State → Outcome} {act : HostAction} {s t : State} (h : hostAct run act s = .next t) :
    (∃ v, run v s = .next t) ∨ (∃ v, t = s.setA v) ∨ (∃ v, t = s.setB v) ∨ (∃ v, t = s.setAddr (s.truncAddr v)) ∨
      (∃ v, t = s.setLen v) ∨ (∃ v, t = s.setDlen v) ∨ (∃ v, t = s.setLastRead v) ∨
      (∃ a v, s.admits a = true ∧ t = s.setMem (s.mem.set a v)) ∨ t = resetEcrc s := by
  cases act with
  | writeReg offset bits v =>
    simp only [hostAct, hostWriteReg] at h
    rcases hr : selectReg offset bits with f | r
    · rw [hr] at h
      simp at h
    · rw [hr] at h
      rcases writeRegister_next h with ⟨-, h⟩ | ⟨-, h⟩ | ⟨-, h⟩ | ⟨-, h⟩ | ⟨-, h⟩ | ⟨-, h⟩
      · exact .inl ⟨v, h⟩
      · exact .inr (.inl ⟨v, h⟩)
      · exact .inr (.inr (.inl ⟨v, h⟩))
      · exact .inr (.inr (.inr (.inl ⟨v, h⟩)))
      · exact .inr (.inr (.inr (.inr (.inl ⟨v, h⟩))))
      · exact .inr (.inr (.inr (.inr (.inr (.inl ⟨v, h⟩)))))
  | readReg offset bits =>
    obtain ⟨_, v, _, _, rfl⟩ := hostReadReg_next h
    exact .inr (.inr (.inr (.inr (.inr (.inr (.inl ⟨v, rfl⟩))))))
  | store a v =>
    simp only [hostAct, hostStore, settle_eq_next] at h
    obtain ⟨ha, rfl⟩ := writeByte_ok_iff.mp h
    exact .inr (.inr (.inr (.inr (.inr (.inr (.inr (.inl ⟨a, v, ha, rfl⟩)))))))
  | load a =>
    simp only [hostAct, hostLoad] at h
    rcases hr : readByte s a with f | v
    · rw [hr] at h
      simp at h
    · rw [hr] at h
      refine .inr (.inr (.inr (.inr (.inr (.inr (.inl ⟨zext64 v, ?_⟩))))))
      cases h
      rfl
  | reset =>
    simp only [hostAct] at h
    cases h
    exact .inr (.inr (.inr (.inr (.inr (.inr (.inr (.inr rfl)))))))

/-- What running a command word can do when it answers: the command it decodes to (R29, R78). -/
theorem runCommand_next {c : Word} {s t : State} (h : runCommand c s = .next t) :
    ∃ i, decode c = .ok i ∧ exec i s = .next t := by
  unfold runCommand at h
  rcases hd : decode c with e | i
  · rw [hd] at h
    cases e
    simp at h
  · rw [hd] at h
    exact ⟨i, rfl, h⟩

/-- What a step can do when it answers: wait, or one action of the host on the state whose next action is due. -/
theorem step_next {s t : State} (h : step s = .next t) :
    (s.nextAction = none ∧ t = s) ∨
      ∃ act, s.nextAction = some act ∧ hostAct runCommand act s.advance = .next t := by
  unfold step hostStep at h
  rcases ha : s.nextAction with - | act
  · rw [ha] at h
    exact .inl ⟨rfl, by cases h; rfl⟩
  · rw [ha] at h
    exact .inr ⟨act, rfl, h⟩

/-- The action placed at an index is the one found there. -/
@[simp] theorem placeAction_getElem? (p : List HostAction) (i : Nat) (act : HostAction) :
    (placeAction p i act)[i]? = some act := by
  have hl : (p.take i ++ List.replicate (i - p.length) (HostAction.readReg 0x008 64)).length = i := by
    simp only [List.length_append, List.length_take, List.length_replicate]
    omega
  rw [placeAction, List.getElem?_append_right (by omega), hl]
  simp

/-- After `withFetchWord` the very next step runs the word given. -/
theorem step_withFetchWord (s : State) (nbits w : Nat) :
    step (s.withFetchWord nbits w) = runCommand (tableWord nbits w) (s.withFetchWord nbits w).advance := by
  have h : (s.withFetchWord nbits w).nextAction = some (.writeReg 0x000 64 (tableWord nbits w)) := by
    simp [State.nextAction, State.withFetchWord]
  simp [step, hostStep, h, hostAct, hostWriteReg, selectReg, regAt, regMap, writeRegister]

end Sys2Proof.Machine
end

