-- ==== Sys2Proof/Laws/PerInstr.lean ====
section
/-! SUPPORT. A statement about every instruction as syntax, one lemma per constructor: its word is a command word of
32 bits under its own row of the match and mask table (spec/30_encoding.md R70, R72). -/

namespace Sys2Proof

/-- The word of `i` has bits [63:32] 0, and each row of R72 that matches it has the mnemonic of `i`. -/
def Laws.EncodedWord.Statement (i : Instr) : Prop :=
  (encode i).toNat < 2 ^ 32 ∧ wellFormedWord (encode i) = true ∧
    ∀ r ∈ commandTable, r.matchesWord (encode i) = true ↔ r.mnemonic = i.mnemonic

theorem Laws.EncodedWord.reflect (n : Width) : Laws.EncodedWord.Statement (.reflect n) := by
  unfold Laws.EncodedWord.Statement
  cases n <;> decide

theorem Laws.EncodedWord.insert (n : Width) (bigEndian : Bool) : Laws.EncodedWord.Statement (.insert n bigEndian) := by
  unfold Laws.EncodedWord.Statement
  cases n <;> cases bigEndian <;> decide

theorem Laws.EncodedWord.resolve (createTable : Bool) : Laws.EncodedWord.Statement (.resolve createTable) := by
  unfold Laws.EncodedWord.Statement
  cases createTable <;> decide

theorem Laws.EncodedWord.calcPartial (first last : Bool) : Laws.EncodedWord.Statement (.calcPartial first last) := by
  unfold Laws.EncodedWord.Statement
  cases first <;> cases last <;> decide

theorem Laws.EncodedWord.calculate : Laws.EncodedWord.Statement .calculate := by
  unfold Laws.EncodedWord.Statement
  decide

theorem Laws.EncodedWord.calcAppend : Laws.EncodedWord.Statement .calcAppend := by
  unfold Laws.EncodedWord.Statement
  decide

theorem Laws.EncodedWord.verify : Laws.EncodedWord.Statement .verify := by
  unfold Laws.EncodedWord.Statement
  decide

theorem Laws.EncodedWord.release : Laws.EncodedWord.Statement .release := by
  unfold Laws.EncodedWord.Statement
  decide

end Sys2Proof
end

