-- ==== Sys2Proof/Tests/Slice0.lean ====
section
/-! SUPPORT. The model's own tests. Expected values are those of spec/95_test_vectors.md (named V-...), spec/30_encoding.md R72 and
the worked examples of the rules; the witnesses at the end meet the hypotheses of the statements in Certificates/Slice0. -/

namespace Sys2Proof.Tests

open Sys2Proof.Machine

-- One theorem at a time: checked side by side, the kernel evaluations below take a thread each and their stacks fill memory.
set_option Elab.async false

/-! ## Helpers -/

/-- The machine answers a next state on which `f` holds. -/
def answers (o : Outcome) (f : State → Bool) : Bool :=
  match o with
  | .next t => f t
  | _ => false

/-- The machine stops with the fault `g`. -/
def stops (o : Outcome) (g : Fault) : Bool :=
  match o with
  | .fault f => f == g
  | _ => false

/-- A one-row instance (the parameter sets of spec/95_test_vectors.md). -/
def inst (w : Width) (row : CatalogRow) : Params := { Config.defaultParams with width := w, catalogue := [row] }

def rowP8A : CatalogRow := { Config.exampleRow with polynomial := 0x07, initial := 0, reflectIn := false, reflectOut := false, xorOut := 0, check := 0xF4, residue := 0 }
def rowP16A : CatalogRow := { Config.exampleRow with polynomial := 0x1021, initial := 0xFFFF, reflectIn := false, reflectOut := false, xorOut := 0, check := 0x29B1, residue := 0 }
def rowM16C : CatalogRow := { rowP16A with reflectIn := true, reflectOut := true, xorOut := 0x0001 }
def rowR16 : CatalogRow := { rowP16A with polynomial := 0x8005, initial := 0x1234, reflectIn := true, reflectOut := true }

/-- An instance whose CFG holds a row, under a one-byte name, with no table. -/
def bw (w : Width) (row : CatalogRow) : State := (State.resetWith (inst w row)).setCfg (Cfg.ofRow row [0x58])

/-- The same with its table built. -/
def tb (w : Width) (row : CatalogRow) : State := (bw w row).setCfg ((bw w row).cfg.withTable w.bits)

/-- The operands of a buffer command. -/
def buf (s : State) (addr len dlen : Word) : State := ((s.setAddr addr).setLen len).setDlen dlen

/-- A state about to perform one host action. -/
def due (s : State) (act : HostAction) : State := s.setProgram [act]

/-- "123456789" at 0x2000. -/
def mem9 : Memory :=
  [(0x2000, 0x31), (0x2001, 0x32), (0x2002, 0x33), (0x2003, 0x34), (0x2004, 0x35), (0x2005, 0x36), (0x2006, 0x37),
   (0x2007, 0x38), (0x2008, 0x39)]

/-- "123456789" and its CRC-32, least significant byte first (R172). -/
def mem13 : Memory := mem9 ++ [(0x2009, 0x26), (0x200A, 0x39), (0x200B, 0xF4), (0x200C, 0xCB)]

/-- "CRC-32" at 0x1000; the 0x00 after it is not listed. -/
def memName : Memory := [(0x1000, 0x43), (0x1001, 0x52), (0x1002, 0x43), (0x1003, 0x2D), (0x1004, 0x33), (0x1005, 0x32)]

/-- The bytes of "CRC-32". -/
def nameCrc32 : Name := [0x43, 0x52, 0x43, 0x2D, 0x33, 0x32]

/-- The reset state with a name at 0x1000 and its address in A. -/
def named (s : State) : State := (s.setMem memName).setA 0x1000

/-- An instance that holds memory at [0x1000, 0x3000) only, with W = 32. -/
def small : Params := { Config.defaultParams with regions := [{ lo := 0x1000, hi := 0x3000 }] }

/-- An instance with 16 address bits, whose memory ends at the top of the space. -/
def narrow : Params := { Config.defaultParams with addrBits := 16, regions := [{ lo := 1, hi := 0x10000 }] }

/-! ## Decoding: words written out from the patterns of R72 -/

theorem test_decode_reflect : decode 0b00000000000000000000000000100001 = .ok (.reflect .w32) := by decide
theorem test_decode_insert_be : decode 0b00000000000000000000000100010010 = .ok (.insert .w16 true) := by decide
theorem test_decode_insert_le : decode 0b00000000000000000000000000110010 = .ok (.insert .w64 false) := by decide
theorem test_decode_resolve : decode 0b00000000000000000000000000000011 = .ok (.resolve false) := by decide
theorem test_decode_resolve_ct : decode 0b00000000000000000000001000000011 = .ok (.resolve true) := by decide
theorem test_decode_calcPartial_first : decode 0b00000000000000000000000001000100 = .ok (.calcPartial true false) := by decide
theorem test_decode_calcPartial_last : decode 0b00000000000000000000000010000100 = .ok (.calcPartial false true) := by decide
theorem test_decode_calculate : decode 0b00000000000000000000000000000101 = .ok .calculate := by decide
theorem test_decode_calcAppend : decode 0b00000000000000000000000000000110 = .ok .calcAppend := by decide
theorem test_decode_verify : decode 0b00000000000000000000000000000111 = .ok .verify := by decide
theorem test_decode_release : decode 0b00000000000000000000000000001000 = .ok .release := by decide
theorem test_decodeTableWord : decodeTableWord 32 0xC4 = some (.calcPartial true true) := by decide

/-- The reserved words V-D-7 to V-D-21. -/
theorem test_decode_reserved :
    ([0x0, 0x9, 0xF, 0x15, 0x41, 0x104, 0x1C4, 0x303, 0x13, 0x45, 0x233, 0x18, 0x400, 0x80000005, 0x100000005] : List Word).all
      (fun c => decide (decode c = .error .reservedCommand)) = true := by decide +kernel

/-- Every row of R81 is encoded as the spec's table has it. -/
theorem test_encode_words :
    ([.reflect .w8, .reflect .w16, .reflect .w64, .insert .w8 false, .insert .w32 true, .insert .w64 true, .resolve true,
      .calcPartial false false, .calcPartial true true, .calculate, .calcAppend, .verify, .release] : List Instr).map encode =
    [0x001, 0x011, 0x031, 0x002, 0x122, 0x132, 0x203, 0x004, 0x0C4, 0x005, 0x006, 0x007, 0x008] := by decide

/-! ## WellFormed: an ill-formed term for each check -/

theorem test_wellFormed_words : wellFormedWord 0x203 = true ∧ wellFormedWord 0x0C4 = true := by decide
theorem test_illFormed_high_bits : wellFormedWord 0x100000005 = false := by decide
theorem test_illFormed_no_row : wellFormedWord 0x009 = false ∧ wellFormedWord 0x015 = false := by decide
theorem test_instr_wellFormed : (Instr.insert .w64 true).wellFormed = true := by decide
theorem test_params_wellFormed : Config.defaultParams.WellFormed := by decide
theorem test_illFormed_no_addrBits : ¬ { Config.defaultParams with addrBits := 0, regions := [] }.WellFormed := by decide
theorem test_illFormed_addrBits : ¬ { Config.defaultParams with addrBits := 65 }.WellFormed := by decide
theorem test_illFormed_region : ¬ { Config.defaultParams with addrBits := 16 }.WellFormed := by decide
theorem test_illFormed_row : ¬ (inst .w16 Config.exampleRow).WellFormed := by decide
theorem test_illFormed_row_fields :
    ¬ { rowP8A with polynomial := 0x107 }.WellFormed .w8 ∧ ¬ { rowP8A with initial := 0x100 }.WellFormed .w8 ∧
    ¬ { rowP8A with xorOut := 0x100 }.WellFormed .w8 ∧ ¬ { rowP8A with check := 0x100 }.WellFormed .w8 ∧
    ¬ { rowP8A with residue := 0x100 }.WellFormed .w8 := by decide

/-! ## Running a word as the first command after reset -/

theorem test_first_step_after_reset :
    ∀ w ∈ [0x031, 0x132, 0x203, 0x0C4, 0x005, 0x006, 0x007, 0x008],
      answers (step (State.reset.withFetchWord 32 w)) (fun t => t.pos == 1) = true := by decide +kernel

theorem test_first_step_reserved : stops (step (State.reset.withFetchWord 32 0x009)) .reservedCommand = true := by decide +kernel

/-! ## REFLECT (V-R) and INSERT (V-I) -/

theorem test_reflect_values :
    answers (exec (.reflect .w32) (State.reset.setA 0x04C11DB7)) (·.res == 0xEDB88320) = true ∧
    answers (exec (.reflect .w8) (State.reset.setA 0x1234)) (·.res == 0x2C) = true := by decide +kernel

theorem test_reflect_64 :
    answers (exec (.reflect .w64) (State.reset.setA 0x0123456789ABCDEF)) (·.res == 0xF7B3D591E6A2C480) = true := by decide +kernel

theorem test_insert_orders :
    answers (exec (.insert .w32 true) (buf (State.reset.setA 0xCBF43926) 0x3000 4 0))
      (·.mem == [(0x3000, 0xCB), (0x3001, 0xF4), (0x3002, 0x39), (0x3003, 0x26)]) = true ∧
    answers (exec (.insert .w32 false) (buf (State.reset.setA 0xAABBCCDD11223344) 0x3000 6 0))
      (·.mem == [(0x3000, 0x44), (0x3001, 0x33), (0x3002, 0x22), (0x3003, 0x11)]) = true := by decide +kernel

/-- V-I-9, V-I-12, V-I-13, V-I-14. -/
theorem test_insert_guards :
    answers (exec (.insert .w32 true) (buf (State.reset.setA 0xCBF43926) 0x2000 3 0)) (·.mem == []) = true ∧
    answers (exec (.insert .w16 true) (buf (State.reset.setA 0x1234) 0 8 0)) (·.mem == []) = true ∧
    answers (exec (.insert .w32 false) (buf (State.reset.setA 0x11223344) 0xFFFFFFFFFFFFFFFC 4 0))
      (fun t => t.mem.get 0xFFFFFFFFFFFFFFFF == 0x11) = true ∧
    stops (exec (.insert .w32 false) (buf (State.reset.setA 0x11223344) 0xFFFFFFFFFFFFFFFD 4 0)) .rangeWrap = true := by
  decide +kernel

/-! ## RESOLVE (V-N) -/

/-- V-N-2 and V-N-9: without CT no table, and the fields of the row. -/
theorem test_resolve_fields :
    answers (exec (.resolve false) (named State.reset))
      (fun t => t.status == 1 && t.cfg.poly == 0x04C11DB7 && t.cfg.residue == 0xDEBB20E3 && t.cfg.refOut
        && t.cfg.name == some nameCrc32) = true := by decide +kernel

/-- V-N-1 and V-N-8: CT under either outcome of the draw gives the table or none, and every other field. -/
theorem test_resolve_draw :
    ∀ t, exec (.resolve true) (named State.reset) = .next t →
      t.draws = 1 ∧ t.cfg.poly = 0x04C11DB7 ∧ t.cfg.table.isSome = Config.allocOk 0 := by
  intro t h
  have e : exec (.resolve true) (named State.reset) =
      .next (loadByName true nameCrc32 (releaseContext (named State.reset))) := rfl
  rw [e] at h
  cases h
  have hs : (State.setCfg (releaseContext (named State.reset)) (Cfg.ofRow Config.exampleRow nameCrc32)).allocOk =
      Config.allocOk 0 := rfl
  have hl : loadByName true nameCrc32 (releaseContext (named State.reset)) =
      buildUnderDraw (State.setCfg (releaseContext (named State.reset)) (Cfg.ofRow Config.exampleRow nameCrc32)) := rfl
  rw [hl, buildUnderDraw, hs]
  cases Config.allocOk 0 <;> exact ⟨rfl, rfl, rfl⟩

/-! ## The table (V-T) -/

/-- V-T-6 and V-T-11. -/
theorem test_table_entries :
    (tb .w32 Config.exampleRow).tableView 1 = 0x77073096 ∧ (tb .w32 Config.exampleRow).tableView 128 = 0xEDB88320 ∧
    (tb .w32 Config.exampleRow).tableView 255 = 0x2D02EF8D ∧ (tb .w16 rowM16C).tableView 0 = 0x8001 := by decide +kernel

/-! ## CALC_PARTIAL (V-K) -/

/-- V-K-6, V-K-7 in both modes. -/
theorem test_calcPartial_crc32 :
    answers (exec (.calcPartial true false) (((bw .w32 Config.exampleRow).setA 0xFFFFFFFF).setB 0x31)) (·.res == 0x1208C43E) = true ∧
    answers (exec (.calcPartial true false) (((tb .w32 Config.exampleRow).setA 0xFFFFFFFF).setB 0x31)) (·.res == 0x7C231048) = true ∧
    answers (exec (.calcPartial true true) (((tb .w32 Config.exampleRow).setA 0x1FFFFFFFF).setB 0x131)) (·.res == 0x83DCEFB7) = true := by
  decide +kernel

/-- V-K-9 (W = 8) and V-K-11 (no FIRST in a reflected table stream). -/
theorem test_calcPartial_corners :
    answers (exec (.calcPartial false false) (((tb .w8 rowP8A).setA 0xAB).setB 0xCD)) (·.res == 0x35) = true ∧
    answers (exec (.calcPartial false true) (((tb .w16 rowR16).setA 0x1234).setB 0x31)) (·.res == 0x03D2) = true ∧
    answers (exec (.calcPartial false true) (((bw .w16 rowR16).setA 0x1234).setB 0x31)) (·.res == 0xE2ED) = true := by decide +kernel

/-! ## CALCULATE (V-C), CALC_APPEND (V-A), VERIFY (V-W) -/

/-- V-C-6 in both modes, and V-K-15 where the modes differ. -/
theorem test_calculate_check :
    answers (exec .calculate (buf ((bw .w32 Config.exampleRow).setMem mem9) 0x2000 9 0)) (·.res == 0xCBF43926) = true ∧
    answers (exec .calculate (buf ((tb .w32 Config.exampleRow).setMem mem9) 0x2000 9 0)) (·.res == 0xCBF43926) = true ∧
    answers (exec .calculate (buf ((bw .w16 rowM16C).setMem mem9) 0x2000 9 0)) (·.res == 0xEF91) = true ∧
    answers (exec .calculate (buf ((tb .w16 rowM16C).setMem mem9) 0x2000 9 0)) (·.res == 0x908E) = true := by decide +kernel

/-- V-W-3, V-W-4, V-C-18. -/
theorem test_calculate_edges :
    answers (exec .calculate (buf (tb .w16 rowP16A) 0x2000 0 0)) (·.res == 0xFFFF) = true ∧
    answers (exec .calculate
      (buf { bw .w32 Config.exampleRow with params := { Config.defaultParams with zeroLen := .raw } } 0x2000 0 0))
      (·.res == 0xFFFFFFFF) = true ∧
    stops (exec .calculate (buf (bw .w32 Config.exampleRow) 0xFFFFFFFFFFFFFFFC 5 0)) .rangeWrap = true := by decide +kernel

/-- V-A-6 (little-endian) and V-A-3 (big-endian). -/
theorem test_calcAppend_orders :
    answers (exec .calcAppend (buf ((bw .w32 Config.exampleRow).setMem mem9) 0x2000 13 9)) (·.mem == mem13) = true ∧
    answers (exec .calcAppend (buf ((bw .w16 rowP16A).setMem mem9) 0x2000 11 9))
      (·.mem == mem9 ++ [(0x2009, 0x29), (0x200A, 0xB1)]) = true := by decide +kernel

/-- V-A-11, V-A-15, V-A-17. -/
theorem test_calcAppend_guards :
    answers (exec .calcAppend (buf ((bw .w32 Config.exampleRow).setMem mem9) 0x2000 12 9)) (·.mem == mem9) = true ∧
    stops (exec .calcAppend (buf (bw .w32 Config.exampleRow) 0xFFFFFFFFFFFFFFFC 5 1)) .rangeWrap = true ∧
    answers (exec .calcAppend (buf (bw .w32 Config.exampleRow) 0xFFFFFFFFFFFFFFFC 4 1)) (·.mem == []) = true ∧
    answers (exec .calcAppend (buf (bw .w32 Config.exampleRow) 0x2000 0xFFFFFFFFFFFFFFFF 0xFFFFFFFFFFFFFFFF)) (·.mem == []) = true := by
  decide +kernel

/-- V-W-1 in table mode, V-W-7. -/
theorem test_verify_verdicts :
    answers (exec .verify (buf ((tb .w32 Config.exampleRow).setMem mem13) 0x2000 13 0)) (fun t => t.res == 1 && t.status == 7) = true ∧
    answers (exec .verify (buf ((bw .w32 Config.exampleRow).setMem mem13) 0x2000 3 0)) (fun t => t.res == 0 && t.status == 1) = true := by
  decide +kernel

/-- V-W-13: the empty configuration. -/
theorem test_verify_empty :
    answers (exec .verify (buf (State.reset.setMem mem13) 0x2000 5 0)) (fun t => t.res == 1 && t.status == 4) = true := by decide +kernel

/-! ## RELEASE (V-X) -/

theorem test_release :
    answers (exec .release (((tb .w8 rowP8A).setRes 7).setVerifyOk true))
      (fun t => t.status == 4 && t.cfg == Cfg.empty && t.res == 7 && t.tableView 1 == 0) = true := by decide +kernel

/-! ## The host's accesses (V-H) -/

theorem test_host_reads :
    answers (step (due (State.resetWith (inst .w16 rowP16A)) (.readReg 0x070 64))) (·.lastRead == some 0x10) = true ∧
    answers (step (due State.reset (.readReg 0x828 64))) (·.lastRead == some 0) = true ∧
    answers (step (due (State.resetWith { narrow with addrBits := 32 }) (.writeReg 0x018 64 0x0000000100002000)))
      (·.addr == 0x2000) = true := by decide +kernel

theorem test_host_bad_accesses :
    ∀ act ∈ ([.readReg 0x000 64, .writeReg 0x030 64 1, .writeReg 0x040 64 1, .readReg 0x078 64, .readReg 0x008 32, .readReg 0x00C 64,
        .readReg 0x1000 64] : List HostAction),
      stops (step (due State.reset act)) .badRegisterAccess = true := by decide +kernel

/-- The map has no offset twice and no register twice. -/
theorem test_regMap_nodup : (regMap.map (·.1)).Nodup ∧ (regMap.map (·.2)).Nodup := by decide

/-! ## Witnesses: for each statement with hypotheses, a state and operands that meet all of them together -/

/-- A command word due at CMD. -/
def dueCmd (s : State) (c : Word) : State := due s (.writeReg 0x000 64 c)

/-- CRC-32 in bitwise mode over "123456789". -/
def crcBuf (addr len dlen : Word) : State := buf ((bw .w32 Config.exampleRow).setMem mem9) addr len dlen

/-- The same on an instance that holds memory at [0x1000, 0x3000) only. -/
def smallBuf (addr len dlen : Word) : State := { crcBuf addr len dlen with params := small }

/-- A state whose memory holds two bytes and no 0x00 at the top of a 16-bit space. -/
def topName : State := ((State.resetWith narrow).setMem [(0xFFFE, 0x41), (0xFFFF, 0x42)]).setA 0xFFFE

theorem witness_DecodeFollowsMatchMaskTable :
    (0x203 : Word).toNat < 2 ^ 32 ∧ (0xFFFFFFFF : Word).toNat < 2 ^ 32 ∧ (commandTable[2]).matchesWord 0x203 = true ∧
    decode 0x0C4 = .ok (.calcPartial true true) ∧ decode 0x132 = .ok (.insert .w64 true) := by decide

/-- One reserved word for each case of R75, at its boundary, and words that are not reserved. -/
theorem witness_ReservedWordsFault :
    (dueCmd State.reset 0x009).nextAction = some (.writeReg 0x000 64 0x009) ∧
    ([0x000, 0x009, 0x00F, 0x405, 0x80000005, 0x100000005, 0x8000000000000005, 0x015, 0x042, 0x083, 0x104, 0x202] : List Word).all
      (fun c => decide (ReservedWord c)) = true ∧
    ([0x008, 0x132, 0x0C4, 0x203] : List Word).all (fun c => decide (¬ ReservedWord c)) = true := by decide +kernel

theorem witness_StepRunsDecodedCommand :
    (dueCmd State.reset 0x021).nextAction = some (.writeReg 0x000 64 0x021) ∧ decode 0x021 = .ok (.reflect .w32) ∧
    (Instr.reflect .w32).wellFormed = true := by decide

theorem witness_StepWaitsWithoutAction : State.reset.nextAction = none := by decide

theorem witness_HostWritesStoreOperands :
    (due State.reset (.writeReg 0x018 64 5)).nextAction = some (.writeReg 0x018 64 5) ∧
    (due State.reset (.writeReg 0x008 64 5)).nextAction = some (.writeReg 0x008 64 5) ∧
    (due State.reset (.writeReg 0x010 64 5)).nextAction = some (.writeReg 0x010 64 5) ∧
    (due State.reset (.writeReg 0x020 64 5)).nextAction = some (.writeReg 0x020 64 5) ∧
    (due State.reset (.writeReg 0x028 64 5)).nextAction = some (.writeReg 0x028 64 5) := by decide

theorem witness_HostReadsReturnRegisters :
    (due State.reset (.readReg 0x070 64)).nextAction = some (.readReg 0x070 64) ∧
    (due State.reset (.readReg 0x800 64)).nextAction = some (.readReg (0x800 + 8 * (0 : Fin 256).val) 64) ∧
    (due State.reset (.readReg 0xFF8 64)).nextAction = some (.readReg (0x800 + 8 * (255 : Fin 256).val) 64) := by decide

/-- A read-only register, a wrong width and an offset past DLEN (writes); CMD, the hole and the end of the map (reads). -/
theorem witness_HostAccessOutsideMapFaults :
    ¬ (64 = 64 ∧ 0x030 ∈ [0x000, 0x008, 0x010, 0x018, 0x020, 0x028]) ∧
    ¬ (32 = 64 ∧ 0x008 ∈ [0x000, 0x008, 0x010, 0x018, 0x020, 0x028]) ∧
    (∀ off ∈ [0x000, 0x078, 0x7F8, 0x804, 0x1000], ¬ (64 = 64 ∧
      (off ∈ [0x008, 0x010, 0x018, 0x020, 0x028, 0x030, 0x038, 0x040, 0x048, 0x050, 0x058, 0x060, 0x068, 0x070] ∨
        ∃ i < 256, off = 0x800 + 8 * i))) ∧
    (due State.reset (.writeReg 0x030 64 1)).nextAction = some (.writeReg 0x030 64 1) ∧
    (due State.reset (.readReg 0x1000 64)).nextAction = some (.readReg 0x1000 64) := by decide +kernel

theorem witness_HostChangesNoResultRegister :
    (∃ t, step (due State.reset (.writeReg 0x008 64 7)) = .next t) ∧
    (∀ bits c, (due State.reset (.writeReg 0x008 64 7)).nextAction ≠ some (.writeReg 0x000 bits c)) ∧
    (due State.reset (.writeReg 0x008 64 7)).nextAction ≠ some .reset :=
  ⟨⟨_, rfl⟩, fun _ _ h => by
    have e : (due State.reset (.writeReg 0x008 64 7)).nextAction = some (.writeReg 0x008 64 7) := rfl
    rw [e] at h
    simp at h, by decide⟩

theorem witness_HostMemoryAccess :
    (due State.reset (.store 1 0)).nextAction = some (.store 1 0) ∧ State.reset.admits 1 = true ∧ State.reset.mem.wf ∧
    (due State.reset (.load 0xFFFFFFFFFFFFFFFF)).nextAction = some (.load 0xFFFFFFFFFFFFFFFF) ∧
    State.reset.admits 0xFFFFFFFFFFFFFFFF = true ∧ State.reset.admits 0 = false := by decide

theorem witness_ResetValues : (due State.reset .reset).nextAction = some .reset := by decide

theorem witness_ResetRegistersRead : (0x070 ∈ [0x008, 0x070]) ∧ ∃ i < 256, 0xFF8 = 0x800 + 8 * i := ⟨by decide, 255, by decide, rfl⟩

/-- The guard at LEN = n/8 - 1, a range one past the top, a range that ends at the top, and a byte memory does not admit. -/
theorem witness_InsertStoresBytes :
    ((buf State.reset 0x2000 3 0).len.toNat < Width.w32.bits / 8) ∧
    ((buf State.reset 0xFFFFFFFFFFFFFFFD 4 0).addr ≠ 0 ∧
      2 ^ State.reset.params.addrBits < (0xFFFFFFFFFFFFFFFD : Word).toNat + Width.w32.bits / 8) ∧
    ((buf State.reset 0xFFFFFFFFFFFFFFFC 4 0).addr ≠ 0 ∧
      (0xFFFFFFFFFFFFFFFC : Word).toNat + Width.w32.bits / 8 ≤ 2 ^ State.reset.params.addrBits ∧
      State.reset.AdmitsRange 0xFFFFFFFFFFFFFFFC (Width.w32.bits / 8) ∧ State.reset.mem.wf) ∧
    ¬ (State.resetWith small).AdmitsRange 0x2FFD (Width.w32.bits / 8) := by decide +kernel

theorem witness_ResolveLoadsFirstMatch :
    (named State.reset).a.toNat % 2 ^ (named State.reset).params.addrBits ≠ 0 ∧
    (named State.reset).NameAt ((named State.reset).a.toNat % 2 ^ (named State.reset).params.addrBits) nameCrc32 ∧
    (named State.reset).params.catalogue = [] ++ Config.exampleRow :: [] ∧ nameCrc32 ∈ Config.exampleRow.aliases := by decide +kernel

theorem witness_ResolveWithoutMatchEmpties :
    ((named State.reset).setMem []).a.toNat % 2 ^ ((named State.reset).setMem []).params.addrBits ≠ 0 ∧
    ((named State.reset).setMem []).NameAt 0x1000 [] ∧
    (∀ r ∈ (named State.reset).params.catalogue, r.primaryName ≠ [] ∧ [] ∉ r.aliases) := by decide +kernel

theorem witness_ResolveAbsentNameEmpties :
    State.reset.a.toNat % 2 ^ State.reset.params.addrBits = 0 ∧
    ((State.resetWith narrow).setA 0x10000).a.toNat % 2 ^ narrow.addrBits = 0 := by decide

/-- A name that reaches the top of a 16-bit space, and one that runs into memory that is not admitted. -/
theorem witness_ResolveNameWithoutEndStops :
    (topName.a.toNat % 2 ^ topName.params.addrBits = 0xFFFE ∧ topName.AdmitsRange 0xFFFE 2 ∧
      (∀ v ∈ topName.bytesAt 0xFFFE 2, v ≠ 0) ∧ 0xFFFE + 2 = 2 ^ topName.params.addrBits) ∧
    (((State.resetWith small).setMem [(0x2FFF, 0x41)]).AdmitsRange 0x2FFF 1 ∧
      (∀ v ∈ ((State.resetWith small).setMem [(0x2FFF, 0x41)]).bytesAt 0x2FFF 1, v ≠ 0) ∧
      0x2FFF + 1 < 2 ^ small.addrBits ∧ (State.resetWith small).admits (0x2FFF + 1) = false) := by decide +kernel

/-- "CRC-32" and "PKZIP" find the same row. -/
theorem witness_AliasesLoadTheSameConfiguration :
    (named State.reset).nameAddr ≠ 0 ∧ (named State.reset).NameAt (named State.reset).nameAddr nameCrc32 ∧
    ((named State.reset).setMem [(0x1000, 0x50), (0x1001, 0x4B), (0x1002, 0x5A), (0x1003, 0x49), (0x1004, 0x50)]).NameAt 0x1000
      [0x50, 0x4B, 0x5A, 0x49, 0x50] ∧
    findRow State.reset.params.catalogue nameCrc32 = some Config.exampleRow ∧
    findRow State.reset.params.catalogue [0x50, 0x4B, 0x5A, 0x49, 0x50] = some Config.exampleRow := by decide +kernel

theorem witness_AliasesLoadTheSameConfiguration_next :
    (∃ t, exec (.resolve true) (named State.reset) = .next t) ∧
    ∃ t, exec (.resolve true)
      ((named State.reset).setMem [(0x1000, 0x50), (0x1001, 0x4B), (0x1002, 0x5A), (0x1003, 0x49), (0x1004, 0x50)]) = .next t :=
  ⟨⟨_, rfl⟩, ⟨_, rfl⟩⟩

theorem witness_FoldXorsTheTopByte : (Width.w16.bits - 8 - 1 < Width.w16.bits - 8) ∧ (Width.w8.bits - 8 < Width.w8.bits) := by decide

theorem witness_FirstMattersOnlyInReflectedTable :
    (bw .w32 Config.exampleRow).cfg.table = none ∧ (tb .w8 rowP8A).cfg.refIn = false ∧ (tb .w8 rowP8A).cfg.table.isSome = true := by
  decide

/-- CRC-16/IBM-3740 is in normal orientation. -/
theorem witness_NormalOrientationPathsAgree :
    ((bw .w16 rowP16A).cfg.datapath 16).refIn = false ∧ ((bw .w16 rowP16A).cfg.datapath 16).refOut = false := by decide +kernel

/-- The spec's example row is in reflected orientation, with a palindromic XOROUT. -/
theorem witness_ReflectedOrientationPathsAgree :
    ((bw .w32 Config.exampleRow).cfg.datapath 32).refIn = true ∧ ((bw .w32 Config.exampleRow).cfg.datapath 32).refOut = true ∧
    reflect ((bw .w32 Config.exampleRow).cfg.datapath 32).xorOut = ((bw .w32 Config.exampleRow).cfg.datapath 32).xorOut := by
  decide +kernel

/-- Both rows satisfy AGREE. -/
theorem witness_AgreeingModesGiveTheSameCrc :
    ((bw .w32 Config.exampleRow).cfg.datapath 32).Agree ∧ ((bw .w16 rowP16A).cfg.datapath 16).Agree ∧
    ([0x31] : List Byte) ≠ [] := by decide +kernel

theorem witness_AgreeingModesRunBufferCommandsAlike :
    (buf ((tb .w32 Config.exampleRow).setMem mem13) 0x2000 13 0).cfg.table =
      some (buildTable ((tb .w32 Config.exampleRow).cfg.datapath 32)) ∧
    ((tb .w32 Config.exampleRow).cfg.datapath 32).Agree ∧
    (∃ t, exec .calculate (buf ((tb .w32 Config.exampleRow).setMem mem9) 0x2000 9 0) = .next t) ∧
    (∃ t, exec .calcAppend (buf ((tb .w32 Config.exampleRow).setMem mem9) 0x2000 13 9) = .next t) ∧
    ∃ t, exec .verify (buf ((tb .w32 Config.exampleRow).setMem mem13) 0x2000 13 0) = .next t :=
  ⟨rfl, by decide +kernel, ⟨_, rfl⟩, ⟨_, rfl⟩, ⟨_, rfl⟩⟩

theorem witness_StreamGivesTheWholeCrc :
    ([0x31, 0x32] : List Byte) ≠ [] ∧ ((tb .w32 Config.exampleRow).setA 0xFFFFFFFF).a = (tb .w32 Config.exampleRow).cfg.init := by
  decide +kernel

/-- Absent; length 0; one past the top; the last byte of memory; a byte memory does not admit. -/
theorem witness_CalculateResult :
    (crcBuf 0 9 0).addr = 0 ∧ ((crcBuf 0x2000 0 0).addr ≠ 0 ∧ (crcBuf 0x2000 0 0).len = 0) ∧
    ((crcBuf 0xFFFFFFFFFFFFFFFC 5 0).addr ≠ 0 ∧ (crcBuf 0xFFFFFFFFFFFFFFFC 5 0).len ≠ 0 ∧
      2 ^ (crcBuf 0 0 0).params.addrBits < (0xFFFFFFFFFFFFFFFC : Word).toNat + (5 : Word).toNat) ∧
    ((0xFFFFFFFFFFFFFFFC : Word).toNat + (4 : Word).toNat ≤ 2 ^ (crcBuf 0 0 0).params.addrBits ∧
      (crcBuf 0xFFFFFFFFFFFFFFFC 4 0).AdmitsRange 0xFFFFFFFFFFFFFFFC 4) ∧
    ((0x2FFC : Word).toNat + (5 : Word).toNat ≤ 2 ^ (smallBuf 0 0 0).params.addrBits ∧
      ¬ (smallBuf 0x2FFC 5 0).AdmitsRange 0x2FFC 5) := by decide +kernel

/-- LEN one too short; one past the top; a range memory does not admit; a range that ends at the top. -/
theorem witness_CalcAppendWritesTheChecksum :
    ((crcBuf 0x2000 12 9).len.toNat < (crcBuf 0x2000 12 9).dlen.toNat + (crcBuf 0x2000 12 9).params.width.bits / 8) ∧
    ((crcBuf 0xFFFFFFFFFFFFFFFC 5 1).addr ≠ 0 ∧ (1 : Word).toNat + 4 ≤ (5 : Word).toNat ∧
      2 ^ (crcBuf 0 0 0).params.addrBits < (0xFFFFFFFFFFFFFFFC : Word).toNat + (1 : Word).toNat + 4) ∧
    (¬ (smallBuf 0x2FFC 5 1).AdmitsRange 0x2FFC ((1 : Word).toNat + 4) ∧
      (0x2FFC : Word).toNat + (1 : Word).toNat + 4 ≤ 2 ^ (smallBuf 0 0 0).params.addrBits) ∧
    ((0xFFFFFFFFFFFFFFFC : Word).toNat + (0 : Word).toNat + 4 ≤ 2 ^ (crcBuf 0 0 0).params.addrBits ∧
      (crcBuf 0xFFFFFFFFFFFFFFFC 4 0).AdmitsRange 0xFFFFFFFFFFFFFFFC ((0 : Word).toNat + 4) ∧ (crcBuf 0 0 0).mem.wf) := by decide +kernel

/-- LEN = W/8 - 1 and W/8; one past the top; a range memory does not admit. -/
theorem witness_VerifyVerdict :
    ((crcBuf 0x2000 3 0).len.toNat < (crcBuf 0x2000 3 0).params.width.bits / 8) ∧
    ((crcBuf 0x2000 4 0).addr ≠ 0 ∧ (crcBuf 0x2000 4 0).params.width.bits / 8 ≤ (crcBuf 0x2000 4 0).len.toNat ∧
      (crcBuf 0x2000 4 0).AdmitsRange 0x2000 4) ∧
    (2 ^ (crcBuf 0 0 0).params.addrBits < (0xFFFFFFFFFFFFFFFC : Word).toNat + (8 : Word).toNat) ∧
    (¬ (smallBuf 0x2FFD 4 0).AdmitsRange 0x2FFD 4 ∧ (0x2FFD : Word).toNat + (4 : Word).toNat ≤ 2 ^ (smallBuf 0 0 0).params.addrBits) := by
  decide +kernel

theorem witness_EmptyConfigurationResults :
    (buf State.reset 0x2000 6 2).cfg = Cfg.empty ∧ (buf State.reset 0x2000 6 2).addr ≠ 0 ∧
    (0x2000 : Word).toNat + (6 : Word).toNat ≤ 2 ^ State.reset.params.addrBits ∧ (buf State.reset 0x2000 6 2).AdmitsRange 0x2000 6 ∧
    State.reset.params.width.bits / 8 ≤ (6 : Word).toNat ∧
    (2 : Word).toNat + State.reset.params.width.bits / 8 ≤ (6 : Word).toNat ∧ State.reset.mem.wf := by decide +kernel

theorem witness_ResidueIsMessageIndependent :
    ((bw .w32 Config.exampleRow).cfg.datapath 32).refIn = ((bw .w32 Config.exampleRow).cfg.datapath 32).refOut ∧
    ((bw .w8 rowP8A).cfg.datapath 8).refIn = ((bw .w8 rowP8A).cfg.datapath 8).refOut := by decide

/-- CRC-32 over "123456789": the row's residue 0xDEBB20E3 is the constant of the empty message (V-L1-2, V-W-8). -/
theorem witness_AppendThenVerifySucceeds :
    (crcBuf 0x2000 13 9).params.zeroLen = .finalize ∧ (crcBuf 0x2000 13 9).mem.wf ∧ (crcBuf 0x2000 13 9).cfg.table = none ∧
    (crcBuf 0x2000 13 9).cfg.refIn = (crcBuf 0x2000 13 9).cfg.refOut ∧
    (crcBuf 0x2000 13 9).cfg.residue =
      (bitwiseCrc ((crcBuf 0x2000 13 9).cfg.datapath 32) ((crcBuf 0x2000 13 9).cfg.init.setWidth 32)
          (appended ((crcBuf 0x2000 13 9).cfg.datapath 32) ((crcBuf 0x2000 13 9).cfg.init.setWidth 32) []) ^^^
        ((crcBuf 0x2000 13 9).cfg.datapath 32).xorOut).setWidth 64 ∧
    (crcBuf 0x2000 13 9).addr ≠ 0 ∧
    (crcBuf 0x2000 13 9).len.toNat = (crcBuf 0x2000 13 9).dlen.toNat + (crcBuf 0x2000 13 9).params.width.bits / 8 ∧
    (0x2000 : Word).toNat + (13 : Word).toNat ≤ 2 ^ (crcBuf 0x2000 13 9).params.addrBits ∧
    (crcBuf 0x2000 13 9).AdmitsRange 0x2000 13 := by decide +kernel

theorem witness_ReleaseIsIdempotent : State.reset.cfg = Cfg.empty ∧ ∃ t, exec .release (tb .w8 rowP8A) = .next t :=
  ⟨rfl, ⟨_, rfl⟩⟩

/-- A next state of a storing command, with an address outside its bytes on either side, and of a table build. -/
theorem witness_CommandWriteMatrix :
    (∃ t, exec (.insert .w16 true) (crcBuf 0x2000 9 0) = .next t) ∧ (∃ t, exec .calcAppend (crcBuf 0x2000 13 9) = .next t) ∧
    (∃ t, exec (.resolve true) (named State.reset) = .next t) ∧
    (0x1FFF < (crcBuf 0x2000 9 0).addr.toNat) ∧ (crcBuf 0x2000 9 0).addr.toNat + Width.w16.bits / 8 ≤ 0x2002 :=
  ⟨⟨_, rfl⟩, ⟨_, rfl⟩, ⟨_, rfl⟩, by decide, by decide⟩

/-- A next state of each of the four commands that write RES, and of the four that do not. -/
theorem witness_ResIsWrittenByFourCommands :
    ∀ i ∈ ([.reflect .w64, .calcPartial true true, .calculate, .verify, .insert .w8 true, .resolve true, .calcAppend, .release] : List Instr),
      answers (exec i (crcBuf 0x2000 13 9)) (fun _ => true) = true := by decide +kernel

theorem witness_CommandsFaultOnlyAsListed :
    exec .calculate (crcBuf 0xFFFFFFFFFFFFFFFC 5 0) = .fault .rangeWrap ∧
    exec (.resolve false) topName = .fault .unterminatedName ∧
    exec .verify (smallBuf 0x2FFD 4 0) = .fault .notAdmitted :=
  ⟨rfl, rfl, rfl⟩

/-- Canonical memories that differ at address 0 alone, under a command that reads, one that stores, and one that does both. -/
theorem witness_AddressZeroIsNeverAccessed :
    (∃ t, exec .calculate (crcBuf 0x2000 9 0) = .next t) ∧ (∃ t, exec (.insert .w16 true) (crcBuf 0x2000 9 0) = .next t) ∧
    (∃ t, exec .calcAppend (crcBuf 0x2000 13 9) = .next t) ∧
    (∀ x, x ≠ 0 → Memory.get ((0, 7) :: mem9) x = Memory.get mem9 x) ∧ Memory.get ((0, 7) :: mem9) 0 ≠ Memory.get mem9 0 ∧
    mem9.wf ∧ Memory.wf ((0, 7) :: mem9) :=
  ⟨⟨_, rfl⟩, ⟨_, rfl⟩, ⟨_, rfl⟩, fun x hx => by simp [Memory.get, hx.symm], by decide, by decide, by decide⟩

/-- Canonical memories that agree on what each command reads and differ on a byte it stores to or just after its range. -/
theorem witness_CommandsReadOnlyTheirRange :
    (∃ t, exec .calculate (crcBuf 0x2000 9 0) = .next t) ∧ (∃ t, exec .verify (crcBuf 0x2000 9 0) = .next t) ∧
    (∃ t, exec .calcAppend (crcBuf 0x2000 13 9) = .next t) ∧ (∃ t, exec (.insert .w16 true) (crcBuf 0x2009 2 0) = .next t) ∧
    (∃ t, exec (.resolve false) (named State.reset) = .next t) ∧
    (∀ x, (crcBuf 0x2000 9 0).Reads .calculate x → Memory.get (mem9 ++ [(0x2009, 1)]) x = Memory.get mem9 x) ∧
    (∀ x, (crcBuf 0x2000 9 0).Reads .verify x → Memory.get (mem9 ++ [(0x2009, 1)]) x = Memory.get mem9 x) ∧
    (∀ x, (crcBuf 0x2000 13 9).Reads .calcAppend x → Memory.get (mem9 ++ [(0x2009, 1)]) x = Memory.get mem9 x) ∧
    (∀ x, (crcBuf 0x2009 2 0).Reads (.insert .w16 true) x → Memory.get (mem9 ++ [(0x2009, 1)]) x = Memory.get mem9 x) ∧
    (crcBuf 0x2000 13 9).Stores .calcAppend 0x2009 ∧ (crcBuf 0x2000 13 9).Stores .calcAppend 0x200C ∧
    ¬ (crcBuf 0x2000 13 9).Stores .calcAppend 0x200D ∧ (crcBuf 0x2009 2 0).Stores (.insert .w16 true) 0x2009 ∧
    ¬ (crcBuf 0x2009 2 0).Stores (.insert .w16 true) 0x200B ∧ mem9.wf ∧ Memory.wf (mem9 ++ [(0x2009, 1)]) := by
  have agree : ∀ x, x < 0x2009 → Memory.get (mem9 ++ [(0x2009, 1)]) x = Memory.get mem9 x := fun x h => by
    have : 0x2009 ≠ x := by omega
    simp [mem9, Memory.get, this]
  exact ⟨⟨_, rfl⟩, ⟨_, rfl⟩, ⟨_, rfl⟩, ⟨_, rfl⟩, ⟨_, rfl⟩, fun x h => agree x h.2.2, fun x h => agree x h.2.2,
    fun x h => agree x h.2.2, fun x h => h.elim, by decide +kernel, by decide +kernel, by decide +kernel, by decide +kernel,
    by decide +kernel, by decide, by decide⟩

/-- The name RESOLVE reads is the whole string with its 0x00, and the byte after it is free. -/
theorem witness_CommandsReadOnlyTheirRange_name :
    (named State.reset).nameAddr ≠ 0 ∧ (named State.reset).NameAt (named State.reset).nameAddr nameCrc32 ∧
    (∀ x, 0x1000 ≤ x → x ≤ 0x1000 + nameCrc32.length → Memory.get (memName ++ [(0x1007, 1)]) x = Memory.get memName x) := by
  refine ⟨by decide +kernel, by decide +kernel, fun x h1 h2 => ?_⟩
  have h2 : x ≤ 0x1006 := h2
  have : 0x1007 ≠ x := by omega
  simp [memName, Memory.get, this]

/-- The invariant holds of a state whose table is built, and a step from it answers. -/
theorem witness_StepKeepsTheStateInvariant :
    (dueCmd (tb .w8 rowP8A) 0x008).Inv ∧ ∃ t, step (dueCmd (tb .w8 rowP8A) 0x008) = .next t := by
  refine ⟨⟨by decide, ⟨by decide, by decide, by decide, by decide, by decide, fun t ht => ?_⟩,
    ⟨by decide, Or.inr rfl, by decide⟩, by decide, by decide⟩, ⟨_, rfl⟩⟩
  have : t = buildTable ((bw .w8 rowP8A).cfg.datapath 8) := Option.some.inj (Option.mem_def.mp ht).symm
  subst this
  exact buildTable_fits .w8 _

theorem witness_ResetMeetsTheStateInvariant : (inst .w8 rowP8A).WellFormed ∧ narrow.addrBits = 16 := by decide

theorem witness_StepKeepsParametersAndProgram :
    (∃ t, step (dueCmd State.reset 0x203) = .next t) ∧ (dueCmd State.reset 0x203).nextAction ≠ none ∧ State.reset.nextAction = none :=
  ⟨⟨_, rfl⟩, by decide, by decide⟩

end Sys2Proof.Tests
end

namespace Sys2Proof.Machine

/-! PROOFS of the statements about the state (spec/10_state.md R25, R27): which writes of the host answer, and which commands
write RES. -/

/-! The register map -/

/-- What the register map can answer (R24): a named register at its listed offset, or an entry of TABLE_VIEW. -/
theorem regAt_some {offset : Nat} {r : Reg} (h : regAt offset = some r) :
    (offset, r) ∈ regMap ∨ ∃ i < 256, offset = 0x800 + 8 * i ∧ r = .tableView (BitVec.ofNat 8 i) := by
  unfold regAt at h
  split at h
  · split at h
    · cases h
      exact .inr ⟨(offset - 0x800) / 8, by omega, by omega, rfl⟩
    · cases h
  · obtain ⟨l₁, l₂, hl, -⟩ := List.lookup_eq_some_iff.mp h
    exact .inl (by simp [hl])

/-- An access that names a register is 64 bits wide, at an offset where the map has the register (R28). -/
theorem selectReg_ok {offset bits : Nat} {r : Reg} (h : selectReg offset bits = .ok r) :
    bits = 64 ∧ regAt offset = some r := by
  unfold selectReg at h
  split at h
  · rcases hr : regAt offset with - | r'
    · rw [hr] at h
      cases h
    · rw [hr] at h
      cases h
      exact ⟨‹_›, rfl⟩
  · cases h

/-- A named register is selected at its listed offset alone. -/
theorem selectReg_named {offset bits : Nat} {r : Reg} (h : selectReg offset bits = .ok r)
    (hr : ∀ i, r ≠ .tableView i) : (offset, r) ∈ regMap := by
  rcases regAt_some (selectReg_ok h).2 with hm | ⟨i, -, -, rfl⟩
  · exact hm
  · exact absurd rfl (hr _)

/-! The host's actions -/

/-- What the host's write of a register can do when it answers (R27, R28): run a command at offset 0x000, or store one of the
five operand registers at its own offset. -/
theorem hostWriteReg_next {run : Word → State → Outcome} {offset bits : Nat} {v : Word} {s t : State}
    (h : hostWriteReg run offset bits v s = .next t) :
    (offset = 0x000 ∧ run v s = .next t) ∨ (offset = 0x008 ∧ t = s.setA v) ∨ (offset = 0x010 ∧ t = s.setB v) ∨
      (offset = 0x018 ∧ t = s.setAddr (s.truncAddr v)) ∨ (offset = 0x020 ∧ t = s.setLen v) ∨
      (offset = 0x028 ∧ t = s.setDlen v) := by
  unfold hostWriteReg at h
  rcases hr : selectReg offset bits with f | r
  · rw [hr] at h
    simp at h
  · rw [hr] at h
    have named := selectReg_named hr
    rcases writeRegister_next h with ⟨rfl, hw⟩ | ⟨rfl, hw⟩ | ⟨rfl, hw⟩ | ⟨rfl, hw⟩ | ⟨rfl, hw⟩ | ⟨rfl, hw⟩
    · exact .inl ⟨by simpa [regMap] using named, hw⟩
    · exact .inr (.inl ⟨by simpa [regMap] using named, hw⟩)
    · exact .inr (.inr (.inl ⟨by simpa [regMap] using named, hw⟩))
    · exact .inr (.inr (.inr (.inl ⟨by simpa [regMap] using named, hw⟩)))
    · exact .inr (.inr (.inr (.inr (.inl ⟨by simpa [regMap] using named, hw⟩))))
    · exact .inr (.inr (.inr (.inr (.inr ⟨by simpa [regMap] using named, hw⟩))))

/-- What the host's store can do when it answers: write one admitted byte. -/
theorem hostStore_next {a : Nat} {v : Byte} {s t : State} (h : hostStore a v s = .next t) :
    s.admits a = true ∧ t = s.setMem (s.mem.set a v) := by
  rwa [hostStore, settle_eq_next, writeByte_ok_iff] at h

/-- What the host's load can do when it answers: hold the byte of an admitted address. -/
theorem hostLoad_next {a : Nat} {s t : State} (h : hostLoad a s = .next t) :
    s.admits a = true ∧ t = s.setLastRead (zext64 (s.mem.get a)) := by
  unfold hostLoad at h
  rcases hr : readByte s a with f | v
  · rw [hr] at h
    simp at h
  · rw [hr] at h
    obtain ⟨ha, rfl⟩ := readByte_ok_iff.mp hr
    exact ⟨ha, by cases h; rfl⟩

/-- An action that is neither a write of CMD nor reset leaves CFG, RES and STATUS alone (R27). -/
theorem hostAct_keeps_results {run : Word → State → Outcome} {act : HostAction} {s t : State}
    (h : hostAct run act s = .next t) (hcmd : ∀ bits c, act ≠ .writeReg 0x000 bits c) (hreset : act ≠ .reset) :
    t.cfg = s.cfg ∧ t.res = s.res ∧ t.status = s.status := by
  cases act with
  | writeReg offset bits v =>
    rcases hostWriteReg_next h with ⟨rfl, -⟩ | ⟨-, rfl⟩ | ⟨-, rfl⟩ | ⟨-, rfl⟩ | ⟨-, rfl⟩ | ⟨-, rfl⟩
    · exact absurd rfl (hcmd bits v)
    all_goals exact ⟨rfl, rfl, rfl⟩
  | readReg offset bits =>
    obtain ⟨-, v, -, -, rfl⟩ := hostReadReg_next h
    exact ⟨rfl, rfl, rfl⟩
  | store a v =>
    obtain ⟨-, rfl⟩ := hostStore_next h
    exact ⟨rfl, rfl, rfl⟩
  | load a =>
    obtain ⟨-, rfl⟩ := hostLoad_next h
    exact ⟨rfl, rfl, rfl⟩
  | reset => exact absurd rfl hreset

/-- Settles O10: a write that answers is at one of the six offsets, and only a command or reset reaches CFG, RES or STATUS. -/
theorem hostChangesNoResultRegister : Obligations.HostChangesNoResultRegister := by
  intro s t h
  rcases step_next h with ⟨hnone, rfl⟩ | ⟨act, hact, h⟩
  · simp [hnone]
  · rw [hact]
    refine ⟨fun off bits v e => ?_, fun hcmd hreset => ?_⟩
    · obtain rfl : act = .writeReg off bits v := Option.some.inj e
      rcases hostWriteReg_next h with ⟨rfl, -⟩ | ⟨rfl, -⟩ | ⟨rfl, -⟩ | ⟨rfl, -⟩ | ⟨rfl, -⟩ | ⟨rfl, -⟩ <;> decide
    · exact hostAct_keeps_results (s := s.advance) h (fun bits c e => hcmd bits c (congrArg some e))
        fun e => hreset (congrArg some e)

/-! RES -/

/-- A Boolean as bit 0 of a word is 0 or 1. -/
theorem bitAt_zero_lt (v : Bool) : (bitAt v 0).toNat < 2 := by cases v <;> decide

/-- Storing the bytes of a value leaves RES alone. -/
theorem insertBytes_res {n : Nat} {s t : State} {p : Nat} {v : BitVec n} {be : Bool} (h : insertBytes s p v be = .ok t) :
    t.res = s.res := by
  obtain ⟨-, ht, -, -⟩ := insertBytes_ok h
  rw [ht, State.setMem_res]

/-- Loading a row by its name leaves RES alone. -/
@[simp] theorem loadByName_res (ct : Bool) (nm : Name) (s : State) : (loadByName ct nm s).res = s.res := by
  rcases loadByName_cases ct nm s with ⟨-, e⟩ | ⟨row, -, -, e⟩ | ⟨row, -, -, e⟩ <;> simp [e]

theorem execInsert_res {n : Width} {be : Bool} {s t : State} (h : execInsert n be s = .next t) : t.res = s.res := by
  rcases execInsert_next h with ⟨-, rfl⟩ | ⟨-, -, -, h⟩
  · rfl
  · exact insertBytes_res h

theorem execResolve_res {ct : Bool} {s t : State} (h : execResolve ct s = .next t) : t.res = s.res := by
  rcases execResolve_next h with ⟨-, rfl⟩ | ⟨-, nm, -, rfl⟩
  · rfl
  · rw [loadByName_res, releaseContext_res]

theorem execCalcAppend_res {s t : State} (h : execCalcAppend s = .next t) : t.res = s.res := by
  rcases execCalcAppend_next h with ⟨-, rfl⟩ | ⟨-, -, -, r, -, h⟩
  · rfl
  · exact insertBytes_res h

/-- VERIFY leaves a verdict in RES (R174). -/
theorem execVerify_res_lt {s t : State} (h : execVerify s = .next t) : t.res.toNat < 2 := by
  rcases execVerify_next h with ⟨-, rfl⟩ | ⟨-, -, r, -, rfl⟩ <;> exact bitAt_zero_lt _

/-- Settles O44, command by command: the value RES is given is widened from its width, or RES is not written. -/
theorem resIsWrittenByFourCommands : Obligations.ResIsWrittenByFourCommands := by
  intro i s t h
  cases i with
  | reflect n =>
    obtain rfl := Host.Outcome.next.inj h
    exact zext64_fits n _
  | insert n be => exact execInsert_res h
  | resolve ct => exact execResolve_res h
  | calcPartial first last =>
    obtain rfl := Host.Outcome.next.inj h
    exact zext64_fits s.params.width _
  | calculate =>
    obtain ⟨r, -, rfl⟩ := execCalculate_next h
    exact zext64_fits s.params.width r
  | calcAppend => exact execCalcAppend_res h
  | verify => exact execVerify_res_lt h
  | release =>
    obtain rfl := Host.Outcome.next.inj h
    exact releaseContext_res s

end Sys2Proof.Machine

namespace Sys2Proof.Machine

/-! PROOFS of the statements about the command word (spec/30_encoding.md R72, R75): the fields as numbers, one case lemma for
the decoder, and the match and mask table as a pattern that fixes every bit outside its field letters. -/

/-! The fields of a word as numbers -/

/-- Bits hi:lo of a word as a number. -/
theorem field_toNat (c : Word) (hi lo : Nat) :
    (c.extractLsb hi lo).toNat = c.toNat / 2 ^ lo % 2 ^ (hi - lo + 1) := by
  rw [BitVec.extractLsb_toNat, Nat.shiftRight_eq_div_pow]

theorem field_eq_zero_iff (c : Word) (hi lo : Nat) :
    c.extractLsb hi lo = 0 ↔ c.toNat / 2 ^ lo % 2 ^ (hi - lo + 1) = 0 := by
  rw [← field_toNat]
  exact BitVec.toNat_inj.symm

/-- A one-bit field as a number (R74). -/
theorem flagBit_toNat (c : Word) (i : Nat) : (flagBit c i).toNat = c.toNat / 2 ^ i % 2 := by
  rw [flagBit, ← BitVec.testBit_toNat, Nat.toNat_testBit]

theorem getLsbD_eq_true_iff (c : Word) (i : Nat) : c.getLsbD i = true ↔ c.toNat / 2 ^ i % 2 = 1 := by
  rw [← BitVec.testBit_toNat, Nat.testBit_eq_decide_div_mod_eq, decide_eq_true_iff]

/-- The cases of R75 on the number of the word. -/
theorem reservedWord_iff (c : Word) : ReservedWord c ↔
    c.toNat % 16 = 0 ∨ 9 ≤ c.toNat % 16 ∨ 1024 ≤ c.toNat ∨
      (c.toNat / 16 % 4 ≠ 0 ∧ c.toNat % 16 ≠ 1 ∧ c.toNat % 16 ≠ 2) ∨
      (c.toNat / 64 % 4 ≠ 0 ∧ c.toNat % 16 ≠ 4) ∨
      (c.toNat / 256 % 2 ≠ 0 ∧ c.toNat % 16 ≠ 2) ∨
      (c.toNat / 512 % 2 ≠ 0 ∧ c.toNat % 16 ≠ 3) := by
  have hc := c.isLt
  have hop (k : Nat) (hk : k < 16) : c.extractLsb 3 0 = BitVec.ofNat 4 k ↔ c.toNat % 16 = k := by
    have h := field_toNat c 3 0
    rw [← BitVec.toNat_inj, BitVec.toNat_ofNat]
    omega
  have h1 : c.extractLsb 3 0 = 1 ↔ c.toNat % 16 = 1 := hop 1 (by decide)
  have h2 : c.extractLsb 3 0 = 2 ↔ c.toNat % 16 = 2 := hop 2 (by decide)
  have h3 : c.extractLsb 3 0 = 3 ↔ c.toNat % 16 = 3 := hop 3 (by decide)
  have h4 : c.extractLsb 3 0 = 4 ↔ c.toNat % 16 = 4 := hop 4 (by decide)
  simp only [ReservedWord, h1, h2, h3, h4, field_eq_zero_iff, field_toNat, getLsbD_eq_true_iff, ne_eq]
  omega

/-! The encoder -/

/-- The word of REFLECT as a number, with the NSEL code as its bits 5:4 (R73, R80). -/
theorem encode_reflect_toNat (nsel : BitVec 2) :
    (encode (.reflect (widthOfNsel nsel))).toNat = 1 + 16 * nsel.toNat := by
  revert nsel
  decide

theorem encode_insert_toNat (nsel : BitVec 2) (be : Bool) :
    (encode (.insert (widthOfNsel nsel) be)).toNat = 2 + 16 * nsel.toNat + 256 * be.toNat := by
  revert nsel be
  decide

theorem encode_resolve_toNat (ct : Bool) : (encode (.resolve ct)).toNat = 3 + 512 * ct.toNat := by
  cases ct <;> rfl

theorem encode_calcPartial_toNat (first last : Bool) :
    (encode (.calcPartial first last)).toNat = 4 + 64 * first.toNat + 128 * last.toNat := by
  cases first <;> cases last <;> rfl

/-- The decoder reads back every command from its word. -/
theorem decode_encode (i : Instr) : decode (encode i) = .ok i := by
  cases i with
  | reflect n => cases n <;> rfl
  | insert n be => cases n <;> cases be <;> rfl
  | resolve ct => cases ct <;> rfl
  | calcPartial first last => cases first <;> cases last <;> rfl
  | calculate => rfl
  | calcAppend => rfl
  | verify => rfl
  | release => rfl

/-- No command's word is reserved. -/
theorem not_reservedWord_encode (i : Instr) : ¬ ReservedWord (encode i) := by
  cases i with
  | reflect n => cases n <;> decide
  | insert n be => cases n <;> cases be <;> decide
  | resolve ct => cases ct <;> decide
  | calcPartial first last => cases first <;> cases last <;> decide
  | calculate => decide
  | calcAppend => decide
  | verify => decide
  | release => decide

/-! The decoder -/

/-- An arm of the decoder refuses the word under a test `P` on the fields its opcode does not use, and else answers one
command. -/
theorem decodeArm_cases {c : Word} {P : Prop} [Decidable P] {i : Instr}
    (hok : ¬ P → c.toNat = (encode i).toNat) {R : Prop} (herr : P → R) :
    (∃ j, (if P then .error .reservedCommand else .ok i : Except DecodeError Instr) = .ok j ∧ c = encode j) ∨
      ((if P then .error .reservedCommand else .ok i : Except DecodeError Instr) = .error .reservedCommand ∧
        R) := by
  by_cases hP : P
  · exact .inr ⟨if_pos hP, herr hP⟩
  · exact .inl ⟨i, if_neg hP, BitVec.eq_of_toNat_eq (hok hP)⟩

/-- What the decoder answers (R78): the command whose word it was given, or that the word is reserved. -/
theorem decode_cases (c : Word) :
    (∃ i, decode c = .ok i ∧ c = encode i) ∨ (decode c = .error .reservedCommand ∧ ReservedWord c) := by
  have hc := c.isLt
  unfold decode
  simp only [field_eq_zero_iff, field_toNat, reservedWord_iff, ne_eq, pow_zero, Nat.div_one, Nat.reduceSub, Nat.reduceAdd,
    Nat.reducePow]
  split
  · exact .inr ⟨rfl, by omega⟩
  have hlow : c.toNat < 1024 := by omega
  split
  case h_1 hop =>
    refine decodeArm_cases (fun h => ?_) fun h => by rw [hop]; omega
    rw [encode_reflect_toNat, field_toNat]
    omega
  case h_2 hop =>
    refine decodeArm_cases (fun h => ?_) fun h => by rw [hop]; omega
    rw [encode_insert_toNat, field_toNat, flagBit_toNat]
    omega
  case h_3 hop =>
    refine decodeArm_cases (fun h => ?_) fun h => by rw [hop]; omega
    rw [encode_resolve_toNat, flagBit_toNat]
    omega
  case h_4 hop =>
    refine decodeArm_cases (fun h => ?_) fun h => by rw [hop]; omega
    rw [encode_calcPartial_toNat, flagBit_toNat, flagBit_toNat]
    omega
  case h_5 hop | h_6 hop | h_7 hop | h_8 hop =>
    refine decodeArm_cases (fun h => ?_) fun h => by rw [hop]; omega
    simp only [encode, BitVec.ofNat_eq_ofNat, BitVec.reduceToNat]
    omega
  case h_9 h₁ h₂ h₃ h₄ h₅ h₆ h₇ h₈ =>
    simp only [imp_false] at h₁ h₂ h₃ h₄ h₅ h₆ h₇ h₈
    exact .inr ⟨rfl, by omega⟩

/-- A word that decodes is the word of its command. -/
theorem eq_encode_of_decode {c : Word} {i : Instr} (h : decode c = .ok i) : c = encode i := by
  rcases decode_cases c with ⟨j, hj, hc⟩ | ⟨he, -⟩
  · obtain rfl := Except.ok.inj (h.symm.trans hj)
    exact hc
  · exact absurd (h.symm.trans he) nofun

/-- The decoder refuses every reserved word (R75). -/
theorem decode_of_reservedWord {c : Word} (h : ReservedWord c) : decode c = .error .reservedCommand := by
  rcases decode_cases c with ⟨i, -, rfl⟩ | ⟨he, -⟩
  · exact absurd h (not_reservedWord_encode i)
  · exact he

/-- Every word that is not reserved is a command (R78). -/
theorem decode_of_not_reservedWord {c : Word} (h : ¬ ReservedWord c) : ∃ i, decode c = .ok i := by
  rcases decode_cases c with ⟨i, hi, -⟩ | ⟨-, hr⟩
  · exact ⟨i, hi⟩
  · exact absurd hr h

/-! The write of CMD -/

/-- A due write of CMD runs the word it writes (R29). -/
theorem step_writeCmd {s : State} {c : Word} (h : s.nextAction = some (.writeReg 0x000 64 c)) :
    step s = runCommand c s.advance := by
  rw [step, hostStep, h]
  rfl

/-- A reserved word faults in every state (R75). -/
theorem runCommand_of_reservedWord {c : Word} (h : ReservedWord c) (s : State) :
    runCommand c s = .fault .reservedCommand := by
  rw [runCommand, decode_of_reservedWord h]
  rfl

/-- Settles O3: the decoder refuses exactly the reserved words, and a write of CMD faults where the decoder refuses. -/
theorem reservedWordsFault : Obligations.ReservedWordsFault := by
  intro s c h
  refine ⟨fun hr => ?_, decode_of_not_reservedWord⟩
  rw [step_writeCmd h, runCommand_of_reservedWord hr]

/-! The match and mask table -/

/-- The word of every command has 32 bits, and the rows of R72 that match it are those of its own mnemonic. -/
theorem encodedWord (i : Instr) : Laws.EncodedWord.Statement i := by
  cases i with
  | reflect n => exact Laws.EncodedWord.reflect n
  | insert n be => exact Laws.EncodedWord.insert n be
  | resolve ct => exact Laws.EncodedWord.resolve ct
  | calcPartial first last => exact Laws.EncodedWord.calcPartial first last
  | calculate => exact Laws.EncodedWord.calculate
  | calcAppend => exact Laws.EncodedWord.calcAppend
  | verify => exact Laws.EncodedWord.verify
  | release => exact Laws.EncodedWord.release

/-- A 32-bit word that a row matches is the row's match with the word's own bits at the field letters. -/
theorem eq_mtch_or_letters {c : Word} {r : CommandRow} (hc : c.toNat < 2 ^ 32) (h : r.matchesWord c = true) :
    c = r.mtch ||| (c &&& (0xFFFFFFFF &&& ~~~r.mask)) := by
  have hm : c &&& r.mask = r.mtch := beq_iff_eq.mp h
  have hlow : c &&& 0xFFFFFFFF = c := by
    apply BitVec.eq_of_toNat_eq
    rw [BitVec.toNat_and]
    exact (Nat.and_two_pow_sub_one_eq_mod _ 32).trans (Nat.mod_eq_of_lt hc)
  rw [← BitVec.and_assoc, hlow, ← hm, ← BitVec.and_or_distrib_left, BitVec.or_not_self, BitVec.and_allOnes]

/-- The letter of a flag gives the flag (R74). -/
theorem and_flagAt (c : Word) (i : Nat) : c &&& (1 : Word) <<< i = flagAt (flagBit c i) i :=
  BitVec.twoPow_eq 64 i ▸ BitVec.and_twoPow c i

/-- The two bits of the code of a width are NSEL (R73). -/
theorem nselOf_widthOfNsel (nsel : BitVec 2) :
    nselOf (widthOfNsel nsel) <<< 4 = flagAt (nsel.getLsbD 0) 4 ||| flagAt (nsel.getLsbD 1) 5 := by
  revert nsel
  decide

/-- The NSEL letters of a pattern give the width's code (R73). -/
theorem and_nsel (c : Word) : c &&& 0x30 = nselOf (widthOfNsel (c.extractLsb 5 4)) <<< 4 := by
  calc c &&& 0x30
    _ = c &&& (1 : Word) <<< 4 ||| c &&& (1 : Word) <<< 5 := by rw [← BitVec.and_or_distrib_left]; rfl
    _ = flagAt (flagBit c 4) 4 ||| flagAt (flagBit c 5) 5 := by rw [and_flagAt, and_flagAt]
    _ = nselOf (widthOfNsel (c.extractLsb 5 4)) <<< 4 := by
      rw [nselOf_widthOfNsel]
      simp [flagBit]

/-- A 32-bit word that a row of R72 matches is the word of a command of that row. -/
theorem eq_encode_of_matchesWord {c : Word} {r : CommandRow} (hc : c.toNat < 2 ^ 32) (hr : r ∈ commandTable)
    (h : r.matchesWord c = true) : ∃ i, c = encode i ∧ i.mnemonic = r.mnemonic := by
  have hl := eq_mtch_or_letters hc h
  simp only [commandTable, List.mem_cons, List.not_mem_nil, or_false] at hr
  rcases hr with rfl | rfl | rfl | rfl | rfl | rfl | rfl | rfl
  · exact ⟨.reflect (widthOfNsel (c.extractLsb 5 4)), by rw [encode, ← and_nsel]; exact hl, rfl⟩
  · refine ⟨.insert (widthOfNsel (c.extractLsb 5 4)) (flagBit c 8), ?_, rfl⟩
    rw [encode, ← and_nsel, ← and_flagAt, BitVec.or_assoc, ← BitVec.and_or_distrib_left]
    exact hl
  · exact ⟨.resolve (flagBit c 9), by rw [encode, ← and_flagAt]; exact hl, rfl⟩
  · refine ⟨.calcPartial (flagBit c 6) (flagBit c 7), ?_, rfl⟩
    rw [encode, ← and_flagAt, ← and_flagAt, BitVec.or_assoc, ← BitVec.and_or_distrib_left]
    exact hl
  · exact ⟨.calculate, by simpa [encode] using hl, rfl⟩
  · exact ⟨.calcAppend, by simpa [encode] using hl, rfl⟩
  · exact ⟨.verify, by simpa [encode] using hl, rfl⟩
  · exact ⟨.release, by simpa [encode] using hl, rfl⟩

/-- Settles O2: a word that decodes is its command's word, which the rows of its own mnemonic match, and a row's pattern
spells the word of one of its commands. -/
theorem decodeFollowsMatchMaskTable : Obligations.DecodeFollowsMatchMaskTable := by
  refine fun c hc => ⟨fun r hr => ⟨?_, fun h => ?_⟩, fun i hi => ?_⟩
  · rintro ⟨i, hi, hm⟩
    obtain ⟨-, -, hrows⟩ := encodedWord i
    rw [eq_encode_of_decode hi, hrows r hr, hm]
  · obtain ⟨i, rfl, hm⟩ := eq_encode_of_matchesWord hc hr h
    exact ⟨i, decode_encode i, hm⟩
  · obtain rfl := eq_encode_of_decode hi
    cases i with
    | reflect n => cases n <;> rfl
    | insert n be => cases n <;> cases be <;> exact ⟨rfl, rfl⟩
    | resolve ct => cases ct <;> rfl
    | calcPartial first last => cases first <;> cases last <;> exact ⟨rfl, rfl⟩
    | calculate => rfl
    | calcAppend => rfl
    | verify => rfl
    | release => rfl

end Sys2Proof.Machine

namespace Sys2Proof.Machine

/-! PROOFS of the statements about REFLECT and INSERT (spec/40_bit_utilities.md R100 to R104): the bits and bytes of the value
operand, and one equation for each way INSERT can end. -/

/-! The value operand -/

/-- Widening keeps every bit of a value of at most 64 bits (R14). -/
theorem zext64_getLsbD {n : Nat} (v : BitVec n) (h : n ≤ 64) (i : Nat) : (zext64 v).getLsbD i = v.getLsbD i := by
  rw [zext64, BitVec.getLsbD_setWidth, Bool.and_eq_right_iff_imp, decide_eq_true_iff]
  exact fun hv => (BitVec.lt_of_getLsbD hv).trans_le h

/-- The bits of `trunc_n(A)` (R77): those of A below bit n. -/
theorem State.valueOperand_getLsbD (s : State) (n : Width) (i : Nat) :
    (s.valueOperand n).getLsbD i = (decide (i < n.bits) && s.a.getLsbD i) := by
  rw [State.valueOperand, truncTo, BitVec.getLsbD_setWidth]

/-- The bits of the reflected value operand (R100): bit i is bit n-1-i of A. -/
theorem State.reflect_valueOperand_getLsbD (s : State) (n : Width) (i : Nat) :
    (reflect (s.valueOperand n)).getLsbD i = (decide (i < n.bits) && s.a.getLsbD (n.bits - 1 - i)) := by
  rw [reflect_getLsbD, State.valueOperand_getLsbD, ← Bool.and_assoc, ← Bool.decide_and]
  congr 2
  exact propext (and_iff_left_of_imp fun hi => by omega)

/-- Byte i of the value operand is byte i of A, since it ends at or below bit n (R103). -/
theorem State.byteOf_valueOperand (s : State) (n : Width) {i : Nat} (h : i < n.bits / 8) :
    byteOf (s.valueOperand n) i = s.a.extractLsb' (8 * i) 8 := by
  refine BitVec.eq_of_getLsbD_eq fun j hj => ?_
  have hbit : 8 * i + j < n.bits := by omega
  rw [byteOf, BitVec.getLsbD_extractLsb', BitVec.getLsbD_extractLsb', State.valueOperand_getLsbD, decide_eq_true hbit,
    Bool.true_and]

/-- Settles O15: the result's bits are those of the reflected operand, which widening keeps. -/
theorem reflectResult : Obligations.ReflectResult := by
  refine ⟨⟨rfl, rfl, rfl, rfl⟩, fun n s => ⟨_, rfl, rfl, fun i => ?_⟩⟩
  rw [State.setRes_res, zext64_getLsbD _ n.bits_le, State.reflect_valueOperand_getLsbD]

/-! INSERT -/

/-- The byte that stands at offset i of a stored value, by the byte order, is one of its k bytes (R103). -/
theorem storedIndex_lt (be : Bool) {i k : Nat} (h : i < k) : (if be then k - 1 - i else i) < k := by
  split <;> omega

/-- `insertBytes` is stuck on a range with a byte that memory does not admit (R55). -/
theorem insertBytes_of_not_admits {n : Nat} {s : State} {p : Nat} (v : BitVec n) (be : Bool)
    (h : ¬ s.AdmitsRange p (n / 8)) : insertBytes s p v be = .error .notAdmitted := by
  rcases hw : insertBytes s p v be with f | t
  · rw [insertBytes_error hw]
  · exact absurd (insertBytes_ok hw).1 h

/-- The guard of INSERT (R104): an absent or too short buffer changes nothing. -/
theorem execInsert_of_guard {n : Width} {s : State} (be : Bool) (h : s.addr = 0 ∨ s.len.toNat < n.bits / 8) :
    execInsert n be s = .next s := by
  rw [n.bits_div] at h
  exact if_pos (by rwa [absent_eq_true, s.bufAddr_eq_zero])

section PastTheGuard

variable {n : Width} {s : State} (be : Bool) (haddr : s.addr ≠ 0) (hlen : n.bits / 8 ≤ s.len.toNat)
include haddr hlen

/-- INSERT past its guard (R104): the range check decides between the bytes and RangeWrap. -/
theorem execInsert_past_guard : execInsert n be s =
    if s.inSpace s.bufAddr (n.bits / 8) then settle (insertBytes s s.bufAddr (s.valueOperand n) be)
    else raise .rangeWrap := by
  rw [n.bits_div] at hlen ⊢
  refine if_neg ?_
  rw [absent_eq_true, s.bufAddr_eq_zero, not_or, not_lt]
  exact ⟨haddr, hlen⟩

theorem execInsert_wrap (h : s.space < s.addr.toNat + n.bits / 8) : execInsert n be s = .fault .rangeWrap := by
  rw [execInsert_past_guard be haddr hlen]
  exact if_neg fun hs => (of_decide_eq_true hs).not_gt h

theorem execInsert_in_space (h : s.addr.toNat + n.bits / 8 ≤ s.space) :
    execInsert n be s = settle (insertBytes s s.bufAddr (s.valueOperand n) be) := by
  rw [execInsert_past_guard be haddr hlen]
  exact if_pos (decide_eq_true h)

end PastTheGuard

/-- Settles O16: one equation per way INSERT can end, and the bytes of the value operand are bytes of A. -/
theorem insertStoresBytes : Obligations.InsertStoresBytes := by
  refine ⟨fun n be => decode_encode (.insert n be), fun n be s =>
    ⟨execInsert_of_guard be, execInsert_wrap be, fun haddr hlen hspace hno => ?_, fun haddr hlen hspace hadm => ?_⟩⟩
  · refine (execInsert_in_space be haddr hlen hspace).trans ?_
    rw [settle_eq_fault]
    exact insertBytes_of_not_admits _ be hno
  · obtain ⟨t, ht⟩ := insertBytes_of_admits (s.valueOperand n) be hadm
    obtain ⟨-, hmem, hframe, hbytes⟩ := insertBytes_ok ht
    refine ⟨t, ?_, hmem, hframe, fun hwf i hi => ?_⟩
    · exact (execInsert_in_space be haddr hlen hspace).trans ((settle_eq_next _ _).mpr ht)
    · rw [(hbytes hwf).2 i hi, s.byteOf_valueOperand n (storedIndex_lt be hi)]

end Sys2Proof.Machine

namespace Sys2Proof.Machine

/-! PROOFS of the statements about RESOLVE past its guard (spec/41_resolver.md R114 to R118): which row of the catalogue a name
finds, the state that loading by the name gives for each, and the equation of RESOLVE on a name that memory holds. -/

/-! The row a name finds -/

theorem rowMatches_iff {row : CatalogRow} {nm : Name} :
    rowMatches row nm = true ↔ row.primaryName = nm ∨ nm ∈ row.aliases := by
  simp [rowMatches]

theorem not_rowMatches_iff {row : CatalogRow} {nm : Name} :
    ¬ rowMatches row nm = true ↔ row.primaryName ≠ nm ∧ nm ∉ row.aliases := by
  rw [rowMatches_iff, not_or]

/-- No row is found exactly when no row of the catalogue matches (R115). -/
theorem findRow_eq_none_iff {cat : List CatalogRow} {nm : Name} :
    findRow cat nm = none ↔ ∀ r ∈ cat, r.primaryName ≠ nm ∧ nm ∉ r.aliases := by
  simp only [findRow, List.find?_eq_none, not_rowMatches_iff]

/-- The lowest row that matches is found (R114): the rows before it do not match, and those after it do not matter. -/
theorem findRow_append_cons {pre post : List CatalogRow} {row : CatalogRow} {nm : Name}
    (hpre : ∀ r ∈ pre, r.primaryName ≠ nm ∧ nm ∉ r.aliases) (hrow : row.primaryName = nm ∨ nm ∈ row.aliases) :
    findRow (pre ++ row :: post) nm = some row := by
  have hnone : pre.find? (rowMatches · nm) = none := findRow_eq_none_iff.mpr hpre
  have hhead : (row :: post).find? (rowMatches · nm) = some row := List.find?_cons_of_pos (rowMatches_iff.mpr hrow)
  rw [findRow, List.find?_append, hnone, hhead, Option.none_or]

/-! Loading by a name -/

theorem loadByName_of_findRow_none {s : State} {nm : Name} (ct : Bool) (h : findRow s.params.catalogue nm = none) :
    loadByName ct nm s = s := by
  rw [loadByName, h]

/-- Loading the row found (R116 to R118): its fields under the query string, with a table when CT asks for one and the draw,
which CT takes, succeeds. -/
theorem loadByName_of_findRow_some {s : State} {nm : Name} {row : CatalogRow} (ct : Bool)
    (h : findRow s.params.catalogue nm = some row) :
    loadByName ct nm s =
      { s with
        draws := if ct then s.draws + 1 else s.draws
        cfg := { Cfg.ofRow row nm with
          table := if ct && s.allocOk then some (buildTable ((Cfg.ofRow row nm).datapath s.w)) else none } } := by
  rw [loadByName, h]
  cases ct with
  | false => rfl
  | true =>
    have hdraw : (s.setCfg (Cfg.ofRow row nm)).allocOk = s.allocOk := rfl
    refine (buildUnderDraw_eq _).trans ?_
    rw [hdraw]
    cases s.allocOk <;> rfl

/-! RESOLVE -/

/-- RESOLVE on a name that memory holds at its operand (R110): CFG is released, then the row of that name is loaded. -/
theorem execResolve_of_nameAt {s : State} {nm : Name} (ct : Bool) (ha : s.nameAddr ≠ 0) (hn : s.NameAt s.nameAddr nm) :
    execResolve ct s = .next (loadByName ct nm (releaseContext s)) := by
  rw [execResolve, if_neg (mt (absent_eq_true _).mp ha), readName_ok_iff.mpr hn]

/-- Settles O17: the name finds the first row that matches, and loading it copies the row and takes the draw CT asks for. -/
theorem resolveLoadsFirstMatch : Obligations.ResolveLoadsFirstMatch := by
  intro s ct nm pre row post ha hn hcat hpre hrow
  rw [← s.nameAddr_eq] at ha hn
  have hfind : findRow (releaseContext s).params.catalogue nm = some row :=
    (congrArg (findRow · nm) hcat).trans (findRow_append_cons hpre hrow)
  refine (execResolve_of_nameAt ct ha hn).trans ?_
  rw [loadByName_of_findRow_some ct hfind]
  rfl

/-- Settles O18: no row is found, so loading leaves the released CFG. -/
theorem resolveWithoutMatchEmpties : Obligations.ResolveWithoutMatchEmpties := by
  intro s ct nm ha hn hno
  rw [← s.nameAddr_eq] at ha hn
  have hfind : findRow (releaseContext s).params.catalogue nm = none := findRow_eq_none_iff.mpr hno
  refine (execResolve_of_nameAt ct ha hn).trans ?_
  rw [loadByName_of_findRow_none ct hfind]
  rfl

end Sys2Proof.Machine

namespace Sys2Proof.Machine

/-! PROOFS of the statements about the kernel and CALC_PARTIAL (spec/42_kernel.md R130 to R139): each part of the two datapaths
as numbers or as bits, and CALC_PARTIAL as one run of the kernel. -/

/-! The bitwise datapath -/

/-- The shift doubles the number and cuts it to width (R15). -/
theorem toNat_shiftLeft_one {n : Nat} (r : BitVec n) : (r <<< 1).toNat = r.toNat * 2 % 2 ^ n := by
  rw [BitVec.toNat_shiftLeft, Nat.shiftLeft_eq, pow_one]

/-- The bit that the step tests is 1 exactly when the number is at least 2^(n-1) (R131). -/
theorem getLsbD_top {n : Nat} (r : BitVec n) : r.getLsbD (n - 1) = decide (2 ^ (n - 1) ≤ r.toNat) := by
  rw [← BitVec.msb_eq_getLsbD_last, BitVec.msb_eq_decide]

/-- Settles O23: the tested bit is a comparison with 2^(W-1), and the shift a doubling cut to width. -/
theorem shiftStepOnNumbers : Obligations.ShiftStepOnNumbers := by
  intro w k r
  simp only [shiftStep, getLsbD_top, decide_eq_true_eq]
  split
  · rw [BitVec.toNat_xor, toNat_shiftLeft_one]
  · exact toNat_shiftLeft_one r

/-- Bit j of the byte that is folded (R130): reflected when REFIN is 1. -/
theorem foldedByte_getLsbD {n : Nat} (k : Datapath n) (b : Byte) {j : Nat} (hj : j < 8) :
    (if k.refIn then reflect b else b).getLsbD j = b.getLsbD (if k.refIn then 7 - j else j) := by
  split
  · rw [reflect_getLsbD, decide_eq_true hj, Bool.true_and]
  · rfl

/-- Settles O24: the byte shifted up by W-8 has zeros below bit W-8 and bit i-(W-8) of the byte from there up. -/
theorem foldXorsTheTopByte : Obligations.FoldXorsTheTopByte := by
  intro w k r b i hi
  have h8 := w.bits_ge
  rw [foldByte, BitVec.getLsbD_xor, BitVec.getLsbD_shiftLeft, decide_eq_true hi, Bool.true_and]
  by_cases hlow : i < w.bits - 8
  · rw [if_pos hlow, decide_eq_true hlow, Bool.not_true, Bool.false_and, Bool.xor_false]
  · have hj : i - (w.bits - 8) < 8 := by omega
    have hn : i - (w.bits - 8) < w.bits := by omega
    rw [if_neg hlow, decide_eq_false hlow, Bool.not_false, Bool.true_and, BitVec.getLsbD_setWidth, decide_eq_true hn,
      Bool.true_and, foldedByte_getLsbD k b hj]

/-- The bits of a finalized register (R133): those of its XOR with XOROUT, in reverse order with REFOUT. -/
theorem finalizeBitwise_getLsbD {n : Nat} (k : Datapath n) (r : BitVec n) {i : Nat} (hi : i < n) :
    (finalizeBitwise k r).getLsbD i =
      (if k.refOut then r.getLsbD (n - 1 - i) ^^ k.xorOut.getLsbD (n - 1 - i) else r.getLsbD i ^^ k.xorOut.getLsbD i) := by
  rw [finalizeBitwise]
  split
  · rw [reflect_getLsbD, decide_eq_true hi, Bool.true_and, BitVec.getLsbD_xor]
  · rw [BitVec.getLsbD_xor]

/-- Settles O25: `divide8` is the eight steps written out, and `last` finalizes what they give. -/
theorem bitwiseKernelFinalizesOnLast : Obligations.BitwiseKernelFinalizesOnLast :=
  fun _ k _ _ _ => ⟨rfl, fun _ hi => finalizeBitwise_getLsbD k _ hi⟩

/-! The table datapath -/

section TableSteps

variable {n : Nat} (h8 : 8 ≤ n)
include h8

/-- The table index of both steps (R135, R136): the low byte of a value XORed with the input byte. -/
theorem tableIndex_eq_ofNat (x : BitVec n) (b : Byte) :
    (x ^^^ b.setWidth n).setWidth 8 = BitVec.ofNat 8 ((x.toNat ^^^ b.toNat) % 256) := by
  apply BitVec.eq_of_toNat_eq
  rw [BitVec.toNat_setWidth, BitVec.toNat_xor, BitVec.toNat_setWidth_of_le h8, BitVec.toNat_ofNat]
  exact (Nat.mod_mod _ _).symm

/-- The reflected table step on numbers (R135). -/
theorem tableStepReflected_toNat (tbl : Byte → BitVec n) (r : BitVec n) (b : Byte) (first : Bool) :
    (tableStepReflected tbl r b first).toNat =
      let r1 := if first then (reflect r).toNat else r.toNat
      (r1 / 256) ^^^ (tbl (BitVec.ofNat 8 ((r1 ^^^ b.toNat) % 256))).toNat := by
  rw [← apply_ite BitVec.toNat, tableStepReflected, BitVec.toNat_xor, BitVec.toNat_ushiftRight,
    Nat.shiftRight_eq_div_pow, tableIndex_eq_ofNat h8]

/-- The normal table step on numbers (R136). -/
theorem tableStepNormal_toNat (tbl : Byte → BitVec n) (r : BitVec n) (b : Byte) :
    (tableStepNormal tbl r b).toNat =
      (r.toNat * 256 % 2 ^ n) ^^^ (tbl (BitVec.ofNat 8 (((r.toNat / 2 ^ (n - 8)) ^^^ b.toNat) % 256))).toNat := by
  rw [tableStepNormal, BitVec.toNat_xor, BitVec.toNat_shiftLeft, Nat.shiftLeft_eq, tableIndex_eq_ofNat h8,
    BitVec.toNat_ushiftRight, Nat.shiftRight_eq_div_pow]

end TableSteps

/-- The table kernel is one table step, XORed with XOROUT on `last` and not otherwise (R138). -/
theorem tablePartial_toNat {n : Nat} (k : Datapath n) (tbl : Byte → BitVec n) (r : BitVec n) (b : Byte) (first last : Bool) :
    (tablePartial k tbl r b first last).toNat =
      (if k.refIn then tableStepReflected tbl r b first else tableStepNormal tbl r b).toNat ^^^
        (if last then k.xorOut.toNat else 0) := by
  cases last with
  | false => exact (Nat.xor_zero _).symm
  | true => exact BitVec.toNat_xor _ _

/-- Settles O26: REFIN picks the step, and each step is its rule on numbers. -/
theorem tableStepsOnNumbers : Obligations.TableStepsOnNumbers := by
  intro w k tbl r b first last
  rw [tablePartial_toNat, apply_ite BitVec.toNat, tableStepReflected_toNat w.bits_ge, tableStepNormal_toNat w.bits_ge]

/-! CALC_PARTIAL -/

/-- The kernel under CFG (R137): the presence of CFG.TABLE picks the datapath. -/
theorem State.kernel_eq (s : State) (r : BitVec s.w) (b : Byte) (first last : Bool) :
    s.kernel r b first last =
      match s.cfg.table with
      | none => bitwisePartial (s.cfg.datapath s.w) r b first last
      | some t => tablePartial (s.cfg.datapath s.w) (t.entry s.w) r b first last := by
  rcases ht : s.cfg.table with - | t
  · rw [State.kernel, Cfg.lookup_of_none ht, kernel_none]
  · rw [State.kernel, Cfg.lookup_of_some ht, kernel_some]

/-- Settles O22: the words are those of the encoder, and RES gets one run of the kernel, by the datapath CFG.TABLE picks. -/
theorem calcPartialRunsKernel : Obligations.CalcPartialRunsKernel := by
  refine ⟨⟨decode_encode (.calcPartial false false), decode_encode (.calcPartial true false),
    decode_encode (.calcPartial false true), decode_encode (.calcPartial true true)⟩, fun f l s => ?_⟩
  have hexec : exec (.calcPartial f l) s =
      .next (s.setRes (zext64 (s.kernel s.registerOperand s.byteOperand f l))) := rfl
  rw [hexec, State.kernel_eq]
  cases s.cfg.table <;> rfl

end Sys2Proof.Machine

namespace Sys2Proof.Machine

/-! PROOFS of the statements about CALCULATE, CALC_APPEND and VERIFY (spec/44_whole_buffer.md R170 to R177): what `calc` gives on
a range that memory does or does not admit, and one equation for each way a command can end. -/

/-! Admitted ranges -/

/-- Memory admits a range exactly when it admits the two parts the range is cut into. -/
theorem State.admitsRange_add {s : State} {a j k : Nat} :
    s.AdmitsRange a (j + k) ↔ s.AdmitsRange a j ∧ s.AdmitsRange (a + j) k := by
  refine ⟨fun h => ⟨fun i hi => h i (by omega), fun i hi => ?_⟩, fun ⟨hlo, hhi⟩ i hi => ?_⟩
  · rw [Nat.add_assoc]
    exact h (j + i) (by omega)
  · rcases Nat.lt_or_ge i j with hij | hji
    · exact hlo i hij
    · obtain ⟨d, rfl⟩ := Nat.exists_eq_add_of_le hji
      rw [← Nat.add_assoc]
      exact hhi d (by omega)

/-- `readBytes` is stuck on a range with a byte that memory does not admit (R55). -/
theorem readBytes_of_not_admits {s : State} {a k : Nat} (h : ¬ s.AdmitsRange a k) :
    readBytes s a k = .error .notAdmitted := by
  rcases hr : readBytes s a k with f | vs
  · rw [readBytes_error hr]
  · exact absurd (readBytes_ok_iff.mp hr).1 h

/-! The guards and the range check -/

/-- The guard that CALC_APPEND and VERIFY share (R172, R174), on the registers: an absent buffer, or one of fewer than
k bytes. -/
theorem State.absent_or_short_iff (s : State) (k : Nat) :
    absent s.bufAddr = true ∨ s.bufLen < k ↔ s.addr = 0 ∨ s.len.toNat < k := by
  rw [absent_eq_true, s.bufAddr_eq_zero, State.bufLen]

theorem State.not_absent_or_short {s : State} {k : Nat} (haddr : s.addr ≠ 0) (hlen : k ≤ s.len.toNat) :
    ¬ (absent s.bufAddr = true ∨ s.bufLen < k) := by
  rw [s.absent_or_short_iff, not_or, not_lt]
  exact ⟨haddr, hlen⟩

/-- The data length is 0 exactly when DLEN is. -/
theorem State.dataLen_eq_zero (s : State) : s.dataLen = 0 ↔ s.dlen = 0 := by
  rw [State.dataLen, ← BitVec.toNat_inj]
  rfl

theorem State.wBytes_eq (s : State) : s.wBytes = s.w / 8 := (Width.bits_div _).symm

/-- The range check of R54 over a range of two parts. -/
theorem State.inSpace_add_iff {s : State} {a j k : Nat} : s.inSpace a (j + k) = true ↔ a + j + k ≤ s.space := by
  rw [State.inSpace, decide_eq_true_iff, Nat.add_assoc]

/-! The helper `calc` (R170) -/

/-- The CRC of what memory holds (R170, R171): the loop over the bytes, and `zeroLength()` when there are none. -/
theorem State.crc_bytesAt_eq (s : State) (base len : Nat) :
    s.crc (s.bytesAt base len) =
      if len = 0 then zeroLength s.params.zeroLen (s.cfg.datapath s.w) (truncTo s.w s.cfg.init)
      else s.loopCrc base len := by
  split
  · subst len
    rfl
  · exact s.crc_bytesAt base len ‹_›

/-- `calc` is stuck on a range of the space with a byte that memory does not admit (R55). -/
theorem calcBuffer_of_not_admits {s : State} {base len : Nat} (h : base ≠ 0) (hs : base + len ≤ s.space)
    (ha : ¬ s.AdmitsRange base len) : calcBuffer s base len = .error .notAdmitted := by
  have hlen : len ≠ 0 := by
    rintro rfl
    exact ha fun _ hi => absurd hi (Nat.not_lt_zero _)
  rw [calcBuffer, if_neg (mt (absent_eq_true _).mp h), if_neg hlen, State.inSpace, if_pos (decide_eq_true hs),
    readBytes_of_not_admits ha]

/-- `calc` over at least one byte is the loop of R170. -/
theorem calcBuffer_eq_loopCrc {s : State} {base len : Nat} (h : base ≠ 0) (hl : len ≠ 0) (hs : base + len ≤ s.space)
    (ha : s.AdmitsRange base len) : calcBuffer s base len = .ok (s.loopCrc base len) := by
  rw [calcBuffer_of_admits h hs ha, s.crc_bytesAt base len hl]

/-! CALCULATE -/

@[simp] theorem zext64_zero (n : Nat) : zext64 (0 : BitVec n) = 0 := BitVec.setWidth_zero 64 n

theorem execCalculate_of_ok {s : State} {r : BitVec s.w} (h : calcBuffer s s.bufAddr s.bufLen = .ok r) :
    execCalculate s = .next (s.setRes (zext64 r)) := by
  rw [execCalculate, h]

theorem execCalculate_of_error {s : State} {f : Fault} (h : calcBuffer s s.bufAddr s.bufLen = .error f) :
    execCalculate s = .fault f := by
  rw [execCalculate, h]
  rfl

/-- Settles O35: each clause is one way `calc` ends over ADDR and LEN, and RES gets what it answers. -/
theorem calculateResult : Obligations.CalculateResult := by
  refine ⟨decode_encode .calculate, fun s => ?_⟩
  have haddr := mt s.bufAddr_eq_zero.mp
  have hlen := mt s.bufLen_eq_zero.mp
  refine ⟨fun h0 => ?_, fun ha h0 => ?_, fun ha hl hs => ?_, fun ha _ hs hno => ?_, fun ha hl hs hadm => ?_⟩
  · have hcalc : calcBuffer s s.bufAddr s.bufLen = .ok 0 := by
      rw [s.bufAddr_eq_zero.mpr h0, calcBuffer_absent]
    exact (execCalculate_of_ok hcalc).trans (by rw [zext64_zero]; rfl)
  · have hcalc : calcBuffer s s.bufAddr s.bufLen = .ok (s.crc []) := by
      rw [s.bufLen_eq_zero.mpr h0, calcBuffer_zero (haddr ha)]
    exact execCalculate_of_ok hcalc
  · exact execCalculate_of_error (calcBuffer_wrap (haddr ha) (hlen hl) hs)
  · exact execCalculate_of_error (calcBuffer_of_not_admits (haddr ha) hs hno)
  · exact execCalculate_of_ok (calcBuffer_eq_loopCrc (haddr ha) (hlen hl) hs hadm)

/-! CALC_APPEND -/

/-- The guard of CALC_APPEND (R172): an absent buffer, or one too short for the data and its checksum, changes nothing. -/
theorem execCalcAppend_of_guard {s : State} (h : s.addr = 0 ∨ s.len.toNat < s.dlen.toNat + s.w / 8) :
    execCalcAppend s = .next s := by
  rw [execCalcAppend, s.wBytes_eq, if_pos ((s.absent_or_short_iff (s.dataLen + s.w / 8)).mpr h)]

section PastTheAppendGuard

variable {s : State} (haddr : s.addr ≠ 0) (hlen : s.dlen.toNat + s.w / 8 ≤ s.len.toNat)
include haddr hlen

theorem execCalcAppend_wrap (h : s.space < s.addr.toNat + s.dlen.toNat + s.w / 8) :
    execCalcAppend s = .fault .rangeWrap := by
  have hwrap : ¬ s.inSpace s.bufAddr (s.dataLen + s.w / 8) = true := fun hs => (State.inSpace_add_iff.mp hs).not_gt h
  rw [execCalcAppend, s.wBytes_eq, if_neg (State.not_absent_or_short (k := s.dataLen + s.w / 8) haddr hlen), if_neg hwrap]
  rfl

variable (hspace : s.addr.toNat + s.dlen.toNat + s.w / 8 ≤ s.space)
include hspace

/-- CALC_APPEND over a range of the space (R172): `calc` over the data, then its answer stored after the data. -/
theorem execCalcAppend_in_space : execCalcAppend s =
    settle (calcBuffer s s.bufAddr s.dataLen >>= fun crc =>
      insertBytes s (s.bufAddr + s.dataLen) crc (!s.cfg.refOut)) := by
  have hs : s.inSpace s.bufAddr (s.dataLen + s.w / 8) = true := State.inSpace_add_iff.mpr hspace
  rw [execCalcAppend, s.wBytes_eq, if_neg (State.not_absent_or_short (k := s.dataLen + s.w / 8) haddr hlen), if_pos hs]
  cases calcBuffer s s.bufAddr s.dataLen <;> rfl

/-- CALC_APPEND over data that memory admits stores the CRC of the data directly after it (R172, R173). -/
theorem execCalcAppend_of_data_admitted (hdata : s.AdmitsRange s.addr.toNat s.dlen.toNat) :
    execCalcAppend s = settle (insertBytes s (s.bufAddr + s.dataLen) (s.crc (s.bytesAt s.bufAddr s.dataLen))
      (!s.cfg.refOut)) := by
  have hcalc : calcBuffer s s.bufAddr s.dataLen = .ok (s.crc (s.bytesAt s.bufAddr s.dataLen)) :=
    calcBuffer_of_admits (mt s.bufAddr_eq_zero.mp haddr) ((Nat.le_add_right _ _).trans hspace) hdata
  rw [execCalcAppend_in_space haddr hlen hspace, hcalc]
  rfl

/-- The stuck case of CALC_APPEND (R55): a byte that memory does not admit, in the data or in the checksum. -/
theorem execCalcAppend_of_not_admits (h : ¬ s.AdmitsRange s.addr.toNat (s.dlen.toNat + s.w / 8)) :
    execCalcAppend s = .fault .notAdmitted := by
  by_cases hdata : s.AdmitsRange s.addr.toNat s.dlen.toNat
  · have hsum : ¬ s.AdmitsRange (s.bufAddr + s.dataLen) (s.w / 8) :=
      fun hsum => h (State.admitsRange_add.mpr ⟨hdata, hsum⟩)
    rw [execCalcAppend_of_data_admitted haddr hlen hspace hdata, settle_eq_fault]
    exact insertBytes_of_not_admits _ _ hsum
  · have hcalc : calcBuffer s s.bufAddr s.dataLen = .error .notAdmitted :=
      calcBuffer_of_not_admits (mt s.bufAddr_eq_zero.mp haddr) ((Nat.le_add_right _ _).trans hspace) hdata
    rw [execCalcAppend_in_space haddr hlen hspace, hcalc]
    rfl

end PastTheAppendGuard

/-- The byte order of the checksum (R173): REFOUT = 1 stores the least significant byte first. -/
theorem checksumIndex_eq (refOut : Bool) (k i : Nat) :
    (if !refOut then k - 1 - i else i) = if refOut then i else k - 1 - i := by
  cases refOut <;> rfl

/-- Settles O36: one equation per way CALC_APPEND can end, and what is stored is the CRC of the data. -/
theorem calcAppendWritesTheChecksum : Obligations.CalcAppendWritesTheChecksum := by
  refine ⟨decode_encode .calcAppend, fun s => ?_⟩
  intro k at_ crc
  refine ⟨execCalcAppend_of_guard, execCalcAppend_wrap, execCalcAppend_of_not_admits, fun ha hl hs hadm => ?_⟩
  obtain ⟨hdata, hsum⟩ := State.admitsRange_add.mp hadm
  have hcrc : s.crc (s.bytesAt s.bufAddr s.dataLen) = crc :=
    (s.crc_bytesAt_eq _ _).trans (if_congr s.dataLen_eq_zero rfl rfl)
  obtain ⟨t, ht⟩ := insertBytes_of_admits crc (!s.cfg.refOut) hsum
  obtain ⟨-, hmem, hframe, hbytes⟩ := insertBytes_ok ht
  refine ⟨t, ?_, hmem, hframe, fun hwf i hi => ?_⟩
  · refine (execCalcAppend_of_data_admitted ha hl hs hdata).trans ?_
    rw [settle_eq_next, hcrc]
    exact ht
  · rw [(hbytes hwf).2 i hi, checksumIndex_eq]
    rfl

/-! VERIFY -/

/-- The two registers that hold a verdict (R174). -/
theorem State.setVerdict_eq (s : State) (ok : Bool) :
    s.setVerdict ok = { s with verifyOk := ok, res := if ok then 1 else 0 } := by
  cases ok <;> rfl

/-- The guard of VERIFY (R174, R177): the verdict on a buffer that is absent or cannot hold a checksum is 0. -/
theorem execVerify_of_guard {s : State} (h : s.addr = 0 ∨ s.len.toNat < s.w / 8) :
    execVerify s = .next (s.setVerdict false) := by
  rw [execVerify, s.wBytes_eq, if_pos ((s.absent_or_short_iff _).mpr h)]

section PastTheVerifyGuard

variable {s : State} (haddr : s.addr ≠ 0) (hlen : s.w / 8 ≤ s.len.toNat)
include haddr hlen

theorem execVerify_of_calc_error {f : Fault} (h : calcBuffer s s.bufAddr s.bufLen = .error f) :
    execVerify s = .fault f := by
  rw [execVerify, s.wBytes_eq, if_neg (State.not_absent_or_short haddr hlen), h]
  rfl

theorem execVerify_of_calc_ok {r : BitVec s.w} (h : calcBuffer s s.bufAddr s.bufLen = .ok r) :
    execVerify s = .next (s.setVerdict ((r ^^^ truncTo s.w s.cfg.xorOut) == truncTo s.w s.cfg.residue)) := by
  rw [execVerify, s.wBytes_eq, if_neg (State.not_absent_or_short haddr hlen), h]

end PastTheVerifyGuard

/-- Settles O37: past the guard LEN is not 0, so each clause is one way `calc` ends over the whole buffer. -/
theorem verifyVerdict : Obligations.VerifyVerdict := by
  refine ⟨decode_encode .verify, fun s => ?_⟩
  intro k ok
  have haddr := mt s.bufAddr_eq_zero.mp
  have hlen (hk : k ≤ s.len.toNat) : s.bufLen ≠ 0 := by
    have hpos : 0 < k := Nat.div_pos s.params.width.bits_ge (by decide)
    exact (hpos.trans_le hk).ne'
  refine ⟨execVerify_of_guard, fun ha hk hs => ?_, fun ha hk hs hno => ?_, fun ha hk hs hadm => ?_⟩
  · exact execVerify_of_calc_error ha hk (calcBuffer_wrap (haddr ha) (hlen hk) hs)
  · exact execVerify_of_calc_error ha hk (calcBuffer_of_not_admits (haddr ha) hs hno)
  · have hcalc := calcBuffer_eq_loopCrc (haddr ha) (hlen hk) hs hadm
    exact (execVerify_of_calc_ok ha hk hcalc).trans (congrArg _ (s.setVerdict_eq ok))

end Sys2Proof.Machine

namespace Sys2Proof.Machine

/-! PROOFS of the statements about RELEASE (spec/45_lifecycle.md R190, R191): RELEASE always answers, with the released
context, and releasing an empty context changes nothing. -/

theorem exec_release (s : State) : exec .release s = .next (releaseContext s) := rfl

theorem State.setCfg_self (s : State) : s.setCfg s.cfg = s := rfl

/-- The fixed points of the release (R191): a state whose configuration is already empty. -/
theorem releaseContext_of_cfg_empty {s : State} (h : s.cfg = Cfg.empty) : releaseContext s = s := by
  rw [releaseContext, ← h, s.setCfg_self]

theorem exec_release_of_cfg_empty {s : State} (h : s.cfg = Cfg.empty) : exec .release s = .next s := by
  rw [exec_release, releaseContext_of_cfg_empty h]

/-- What RELEASE answers has an empty configuration (R190). -/
theorem cfg_eq_empty_of_exec_release {s t : State} (h : exec .release s = .next t) : t.cfg = Cfg.empty := by
  obtain rfl := Host.Outcome.next.inj ((exec_release s).symm.trans h)
  exact releaseContext_cfg s

/-- Settles O41: 0x008 is the command word of RELEASE, and the released context is the state with `Cfg.empty` written out. -/
theorem releaseEmptiesConfiguration : Obligations.ReleaseEmptiesConfiguration :=
  ⟨decode_encode .release, exec_release⟩

/-- Settles O42: the first RELEASE leaves CFG empty, so the second one meets the first clause. -/
theorem releaseIsIdempotent : Obligations.ReleaseIsIdempotent :=
  ⟨fun _ => exec_release_of_cfg_empty, fun _ _ h => exec_release_of_cfg_empty (cfg_eq_empty_of_exec_release h)⟩

end Sys2Proof.Machine

namespace Sys2Proof.Machine

/-! PROOFS of the statement about reset (spec/70_reset_and_hazards.md R220): a due reset always answers, and an empty
configuration with VERIFY_OK 0 has STATUS 0. -/

/-- Every bit of STATUS is 0 when CFG holds no name and no table and the last verdict is cleared (R26). -/
theorem State.status_eq_zero {s : State} (hcfg : s.cfg = Cfg.empty) (hok : s.verifyOk = false) : s.status = 0 := by
  rw [State.status, hcfg, hok]
  rfl

/-- A due reset always answers, with the host's index moved on (R40, R220). -/
theorem step_reset {s : State} (h : s.nextAction = some .reset) : step s = .next (resetEcrc s.advance) := by
  rw [step, hostStep, h]
  rfl

theorem State.resetWith_status (p : Params) : (State.resetWith p).status = 0 :=
  State.status_eq_zero (State.resetWith_cfg p) (State.resetWith_verifyOk p)

theorem resetEcrc_status (s : State) : (resetEcrc s).status = 0 :=
  State.status_eq_zero (resetEcrc_cfg s) (resetEcrc_verifyOk s)

/-- Settles O13: the fields are those of the two reset states, and STATUS is derived from the emptied CFG and VERIFY_OK. -/
theorem resetValues : Obligations.ResetValues := by
  refine ⟨fun p => ?_, fun s h => ⟨resetEcrc s.advance, step_reset h, ?_⟩⟩
  · exact ⟨State.resetWith_params p, State.resetWith_cfg p, State.resetWith_a p, State.resetWith_b p,
      State.resetWith_addr p, State.resetWith_len p, State.resetWith_dlen p, State.resetWith_res p,
      State.resetWith_status p, rfl⟩
  · exact ⟨resetEcrc_params _, resetEcrc_mem _, resetEcrc_status _, resetEcrc_cfg _, resetEcrc_a _, resetEcrc_b _,
      resetEcrc_addr _, resetEcrc_len _, resetEcrc_dlen _, resetEcrc_res _⟩

end Sys2Proof.Machine

namespace Sys2Proof.Machine

/-! PROOFS of the statements about the command word and about what a command may write (spec/30_encoding.md R72 to R80;
spec/10_state.md, the write matrix): for each command, the state it answers as an update of the state it started from. -/

/-- Settles O1: a word that decodes is the word of its command, and the decoder reads every command back from its word. -/
theorem decodeIffEncodedWord : Obligations.DecodeIffEncodedWord := by
  intro c i
  constructor
  · exact eq_encode_of_decode
  · rintro rfl
    exact decode_encode i

/-- Settles O4: eight of the words are those of their commands, and the other two are reserved. -/
theorem sampleWordsDecode : Obligations.SampleWordsDecode :=
  ⟨decode_encode (.reflect .w32), decode_encode (.insert .w16 true), decode_encode (.resolve true),
    decode_encode (.calcPartial true false), decode_encode .calculate, decode_encode .calcAppend, decode_encode .verify,
    decode_encode .release, decode_of_reservedWord (by decide), decode_of_reservedWord (by decide)⟩

/-! What each command writes -/

/-- Storing the bytes of a value writes memory alone, inside its range alone, and keeps the canonical form. -/
theorem insertBytes_writes {n : Nat} {s t : State} {p : Nat} {v : BitVec n} {be : Bool}
    (h : insertBytes s p v be = .ok t) :
    ∃ m, t = s.setMem m ∧ (s.mem.wf → m.wf) ∧ ∀ x, x < p ∨ p + n / 8 ≤ x → m.get x = s.mem.get x := by
  obtain ⟨-, hmem, hframe, hbytes⟩ := insertBytes_ok h
  exact ⟨t.mem, hmem, fun hm => (hbytes hm).1, hframe⟩

/-- INSERT writes the n/8 bytes at ADDR alone. -/
theorem execInsert_writes {n : Width} {be : Bool} {s t : State} (h : execInsert n be s = .next t) :
    ∃ m, t = s.setMem m ∧ (s.mem.wf → m.wf) ∧
      ∀ x, x < s.addr.toNat ∨ s.addr.toNat + n.bits / 8 ≤ x → m.get x = s.mem.get x := by
  rcases execInsert_next h with ⟨-, rfl⟩ | ⟨-, -, -, hins⟩
  · exact ⟨t.mem, rfl, id, fun _ _ => rfl⟩
  · exact insertBytes_writes hins

/-- CALC_APPEND writes the W/8 bytes at ADDR + DLEN alone. -/
theorem execCalcAppend_writes {s t : State} (h : execCalcAppend s = .next t) :
    ∃ m, t = s.setMem m ∧ (s.mem.wf → m.wf) ∧
      ∀ x, x < s.addr.toNat + s.dlen.toNat ∨ s.addr.toNat + s.dlen.toNat + s.w / 8 ≤ x → m.get x = s.mem.get x := by
  rcases execCalcAppend_next h with ⟨-, rfl⟩ | ⟨-, -, -, r, -, hins⟩
  · exact ⟨t.mem, rfl, id, fun _ _ => rfl⟩
  · exact insertBytes_writes hins

/-- RESOLVE writes CFG alone, and counts a draw when CT is set. What it leaves in CFG is the empty configuration, or a row of
the catalogue under its name with no table or with the one built from its fields. -/
theorem execResolve_writes {ct : Bool} {s t : State} (h : execResolve ct s = .next t) :
    ∃ c d, t = { s with cfg := c, draws := d } ∧ (ct = false → d = s.draws) ∧
      (c = Cfg.empty ∨ ∃ row ∈ s.params.catalogue, ∃ nm,
        c = Cfg.ofRow row nm ∨ c = (Cfg.ofRow row nm).withTable s.w) := by
  rcases execResolve_next h with ⟨-, rfl⟩ | ⟨-, nm, -, rfl⟩
  · exact ⟨Cfg.empty, s.draws, rfl, fun _ => rfl, .inl rfl⟩
  · rcases loadByName_cases ct nm (releaseContext s) with ⟨-, e⟩ | ⟨row, hrow, -, e⟩ | ⟨row, hrow, hct, e⟩
    · exact ⟨Cfg.empty, s.draws, e, fun _ => rfl, .inl rfl⟩
    · exact ⟨Cfg.ofRow row nm, s.draws, e, fun _ => rfl, .inr ⟨row, (findRow_eq_some hrow).1, nm, .inl rfl⟩⟩
    · refine ⟨_, s.draws + 1, e, fun hf => absurd (hct.symm.trans hf) nofun,
        .inr ⟨row, (findRow_eq_some hrow).1, nm, ?_⟩⟩
      split
      · exact .inr rfl
      · exact .inl rfl

/-- VERIFY writes a verdict and nothing else. -/
theorem execVerify_writes {s t : State} (h : execVerify s = .next t) : ∃ ok, t = s.setVerdict ok := by
  rcases execVerify_next h with ⟨-, rfl⟩ | ⟨-, -, r, -, rfl⟩ <;> exact ⟨_, rfl⟩

/-- Settles O43: each command answers the state it started from with its own fields updated. -/
theorem commandWriteMatrix : Obligations.CommandWriteMatrix := by
  intro i s t h
  cases i with
  | reflect n =>
    obtain rfl := Host.Outcome.next.inj h
    simp [Instr.mnemonic]
  | insert n be =>
    obtain ⟨m, rfl, -, hframe⟩ := execInsert_writes h
    simpa [Instr.mnemonic] using hframe
  | resolve ct =>
    obtain ⟨c, d, rfl, hdraws, -⟩ := execResolve_writes h
    simpa [Instr.mnemonic] using hdraws
  | calcPartial first last =>
    obtain rfl := Host.Outcome.next.inj h
    simp [Instr.mnemonic]
  | calculate =>
    obtain ⟨r, -, rfl⟩ := execCalculate_next h
    simp [Instr.mnemonic]
  | calcAppend =>
    obtain ⟨m, rfl, -, hframe⟩ := execCalcAppend_writes h
    simpa [Instr.mnemonic] using hframe
  | verify =>
    obtain ⟨ok, rfl⟩ := execVerify_writes h
    simp [Instr.mnemonic]
  | release =>
    obtain rfl := Host.Outcome.next.inj h
    simp [Instr.mnemonic]

end Sys2Proof.Machine

namespace Sys2Proof.Machine

/-! PROOFS of the statements about the invariant of the machine and about what every step keeps (spec/10_state.md R17, R24, R30,
R36, R40): the invariant holds of each configuration a command can leave, and of each update a host action makes. -/

/-! The configurations a command can leave -/

theorem Cfg.empty_fits (w : Width) : Cfg.empty.Fits w := by
  have hzero : FitsWidth w 0 := Nat.two_pow_pos _
  exact ⟨hzero, hzero, hzero, hzero, hzero, fun _ ht => absurd ht (Option.not_mem_none _)⟩

theorem Cfg.empty_consistent (w : Width) : Cfg.empty.Consistent w :=
  ⟨nofun, .inl rfl, fun _ => ⟨rfl, rfl, rfl, rfl, rfl, rfl, rfl⟩⟩

/-- A well-formed row is W bits wide once copied (R10, R17). -/
theorem Cfg.ofRow_fits {w : Width} {row : CatalogRow} (h : row.WellFormed w) (nm : Name) :
    (Cfg.ofRow row nm).Fits w := by
  obtain ⟨hpoly, hinit, hxor, hcheck, hres⟩ := h
  exact ⟨hpoly, hinit, hxor, hcheck, hres, fun _ ht => absurd ht (Option.not_mem_none _)⟩

theorem Cfg.ofRow_consistent (w : Width) (row : CatalogRow) (nm : Name) : (Cfg.ofRow row nm).Consistent w :=
  ⟨nofun, .inl rfl, nofun⟩

/-- The table built at width W has W-bit entries (R17). -/
theorem Cfg.withTable_fits {w : Width} {c : Cfg} (h : c.Fits w) : (c.withTable w.bits).Fits w := by
  obtain ⟨hpoly, hinit, hxor, hcheck, hres, -⟩ := h
  refine ⟨hpoly, hinit, hxor, hcheck, hres, fun t ht i => ?_⟩
  obtain rfl : buildTable (c.datapath w.bits) = t := Option.some.inj ht
  exact buildTable_fits w _ i

/-- A table built under a name is the one the fields give (R30). -/
theorem Cfg.withTable_consistent {w : Width} {c : Cfg} (h : c.name.isSome) : (c.withTable w.bits).Consistent w :=
  ⟨fun _ => h, .inr rfl, fun hn => by
    have : c.name = none := hn
    rw [this] at h
    cases h⟩

/-! Steps -/

/-- A configuration in form and consistent keeps the invariant (R30); the draws are no part of it. -/
theorem State.Inv.withCfg {s : State} {c : Cfg} (h : s.Inv) (hfits : c.Fits s.params.width)
    (hcons : c.Consistent s.params.width) (d : Nat) : State.Inv { s with cfg := c, draws := d } := by
  obtain ⟨hparams, -, -, haddr, hmem⟩ := h
  exact ⟨hparams, hfits, hcons, haddr, hmem⟩

theorem State.Inv.setMem {s : State} {m : Memory} (h : s.Inv) (hm : s.mem.wf → m.wf) : (s.setMem m).Inv := by
  obtain ⟨hparams, hfits, hcons, haddr, hmem⟩ := h
  exact ⟨hparams, hfits, hcons, haddr, hm hmem⟩

/-- The rows of the catalogue are W bits wide (R10). -/
theorem State.Inv.row_wellFormed {s : State} {row : CatalogRow} (h : s.Inv) (hrow : row ∈ s.params.catalogue) :
    row.WellFormed s.params.width := by
  obtain ⟨⟨-, hrows, -⟩, -⟩ := h
  exact hrows row hrow

/-- RESOLVE leaves a configuration that keeps the invariant (R30). -/
theorem execResolve_keeps_inv {ct : Bool} {s t : State} (hs : s.Inv) (h : execResolve ct s = .next t) : t.Inv := by
  obtain ⟨c, d, rfl, -, hc⟩ := execResolve_writes h
  rcases hc with rfl | ⟨row, hrow, nm, hc⟩
  · exact hs.withCfg (Cfg.empty_fits _) (Cfg.empty_consistent _) d
  · have hfits := Cfg.ofRow_fits (hs.row_wellFormed hrow) nm
    rcases hc with rfl | rfl
    · exact hs.withCfg hfits (Cfg.ofRow_consistent _ row nm) d
    · exact hs.withCfg (Cfg.withTable_fits hfits) (Cfg.withTable_consistent rfl) d

/-- Every command keeps the invariant. -/
theorem exec_keeps_inv {i : Instr} {s t : State} (hs : s.Inv) (h : exec i s = .next t) : t.Inv := by
  cases i with
  | reflect n =>
    obtain rfl := Host.Outcome.next.inj h
    exact hs
  | insert n be =>
    obtain ⟨m, rfl, hwf, -⟩ := execInsert_writes h
    exact hs.setMem hwf
  | resolve ct => exact execResolve_keeps_inv hs h
  | calcPartial first last =>
    obtain rfl := Host.Outcome.next.inj h
    exact hs
  | calculate =>
    obtain ⟨r, -, rfl⟩ := execCalculate_next h
    exact hs
  | calcAppend =>
    obtain ⟨m, rfl, hwf, -⟩ := execCalcAppend_writes h
    exact hs.setMem hwf
  | verify =>
    obtain ⟨ok, rfl⟩ := execVerify_writes h
    exact hs
  | release =>
    obtain rfl := Host.Outcome.next.inj h
    exact hs.withCfg (Cfg.empty_fits _) (Cfg.empty_consistent _) s.draws

/-- ADDR cut to AW bits keeps the invariant (R24). -/
theorem State.Inv.setAddr {s : State} (h : s.Inv) (v : Word) : (s.setAddr (s.truncAddr v)).Inv := by
  obtain ⟨hparams, hfits, hcons, -, hmem⟩ := h
  exact ⟨hparams, hfits, hcons, s.truncAddr_lt v hparams.1.2, hmem⟩

/-- Reset of a running machine keeps the invariant (R220). -/
theorem State.Inv.resetEcrc {s : State} (h : s.Inv) : (resetEcrc s).Inv := by
  obtain ⟨hparams, -, -, -, hmem⟩ := h
  exact ⟨hparams, Cfg.empty_fits _, Cfg.empty_consistent _, Nat.two_pow_pos _, hmem⟩

/-- Settles O48: a command keeps the invariant, and of the host's other actions only those on ADDR, memory and reset touch what
it speaks of. -/
theorem stepKeepsTheStateInvariant : Obligations.StepKeepsTheStateInvariant := by
  intro s t hs h
  rcases step_next h with ⟨-, rfl⟩ | ⟨act, -, hact⟩
  · exact hs
  have hadv : s.advance.Inv := hs
  rcases hostAct_next hact with ⟨v, hrun⟩ | ⟨v, rfl⟩ | ⟨v, rfl⟩ | ⟨v, rfl⟩ | ⟨v, rfl⟩ | ⟨v, rfl⟩ | ⟨v, rfl⟩ |
    ⟨a, v, -, rfl⟩ | rfl
  · obtain ⟨i, -, hexec⟩ := runCommand_next hrun
    exact exec_keeps_inv hadv hexec
  · exact hs
  · exact hs
  · exact hadv.setAddr v
  · exact hs
  · exact hs
  · exact hs
  · exact hadv.setMem fun hm => Memory.set_wf hm a v
  · exact hadv.resetEcrc

/-- Settles O49: the state after reset has the empty configuration, ADDR 0 and memory that lists nothing. -/
theorem resetMeetsTheStateInvariant : Obligations.ResetMeetsTheStateInvariant := by
  have hreset : ∀ p : Params, p.WellFormed → (State.resetWith p).Inv := fun p hp =>
    ⟨hp, Cfg.empty_fits _, Cfg.empty_consistent _, Nat.two_pow_pos _, .nil, nofun⟩
  exact ⟨hreset Config.defaultParams (by decide), hreset⟩

/-- No action of the host changes a parameter, the program or the position (R36, R40). -/
theorem hostAct_keeps_program {act : HostAction} {s t : State} (h : hostAct runCommand act s = .next t) :
    t.params = s.params ∧ t.program = s.program ∧ t.pos = s.pos := by
  rcases hostAct_next h with ⟨v, hrun⟩ | ⟨v, rfl⟩ | ⟨v, rfl⟩ | ⟨v, rfl⟩ | ⟨v, rfl⟩ | ⟨v, rfl⟩ | ⟨v, rfl⟩ |
    ⟨a, v, -, rfl⟩ | rfl
  · obtain ⟨i, -, hexec⟩ := runCommand_next hrun
    obtain ⟨hparams, -, -, -, -, -, hprogram, hpos, -⟩ := commandWriteMatrix i s t hexec
    exact ⟨hparams, hprogram, hpos⟩
  all_goals exact ⟨rfl, rfl, rfl⟩

/-- Settles O50: a step without an action changes nothing, and one with an action moves the index on before it acts. -/
theorem stepKeepsParametersAndProgram : Obligations.StepKeepsParametersAndProgram := by
  intro s t h
  rcases step_next h with ⟨hnone, rfl⟩ | ⟨act, hsome, hact⟩
  · exact ⟨rfl, rfl, (if_pos hnone).symm⟩
  · obtain ⟨hparams, hprogram, hpos⟩ := hostAct_keeps_program hact
    refine ⟨hparams, hprogram, hpos.trans (if_neg ?_).symm⟩
    simp [hsome]

end Sys2Proof.Machine

namespace Sys2Proof.Machine

/-! PROOFS of the statements about the host's side (spec/10_state.md R24 to R29, R40, R41; spec/70_reset_and_hazards.md R220):
what a step is for each action of the host, and which register stands at an offset. -/

/-! The step, action by action -/

/-- A step with an action due is that action, with the host's index moved on (R40). -/
theorem step_of_nextAction {s : State} {act : HostAction} (h : s.nextAction = some act) :
    step s = hostAct runCommand act s.advance := by
  rw [step, hostStep, h]

/-- Settles O6: a step with no action due is the case of `hostStep` that answers the state it was given. -/
theorem stepWaitsWithoutAction : Obligations.StepWaitsWithoutAction := by
  intro s h
  rw [step, hostStep, h]

/-- Settles O5: the write of CMD runs the word, and running a word that decodes is running its command. -/
theorem stepRunsDecodedCommand : Obligations.StepRunsDecodedCommand := by
  intro s c i h hi _
  rw [step_writeCmd h, runCommand, hi]
  rfl

/-- Settles O7: each of the five offsets selects its operand register, and the write updates that register. -/
theorem hostWritesStoreOperands : Obligations.HostWritesStoreOperands := by
  intro s t off v h ht
  rw [step_of_nextAction h]
  simp only [List.mem_cons, List.not_mem_nil, or_false, Prod.mk.injEq] at ht
  rcases ht with ⟨rfl, rfl⟩ | ⟨rfl, rfl⟩ | ⟨rfl, rfl⟩ | ⟨rfl, rfl⟩ | ⟨rfl, rfl⟩ <;> rfl

/-! The register map -/

/-- The entries of TABLE_VIEW stand 8 bytes apart from 0x800 on (R24). -/
theorem regAt_tableView (i : Fin 256) : regAt (0x800 + 8 * i.val) = some (.tableView (BitVec.ofNat 8 i.val)) := by
  have hi := i.isLt
  have hindex : (0x800 + 8 * i.val - 0x800) / 8 = i.val := by omega
  rw [regAt, if_pos (by omega), if_pos (by omega), hindex]

/-- TABLE_VIEW[i] is entry i of a table that is present (R24). -/
theorem State.tableView_ofNat {s : State} {t : Table} (h : s.cfg.table = some t) (i : Fin 256) :
    s.tableView (BitVec.ofNat 8 i.val) = t[i] := by
  have hi : (BitVec.ofNat 8 i.val).toNat = i.val := Nat.mod_eq_of_lt i.isLt
  simp only [State.tableView, h, hi, Fin.getElem_fin]

theorem State.tableView_of_no_table {s : State} (h : s.cfg.table = none) (i : Byte) : s.tableView i = 0 := by
  rw [State.tableView, h]

/-- CFG_FLAGS as a number: REFIN is its bit 0 and REFOUT its bit 1 (R24). -/
theorem Cfg.flagsWord_eq (c : Cfg) : c.flagsWord = (if c.refIn then 1 else 0) + (if c.refOut then 2 else 0) := by
  rw [Cfg.flagsWord]
  cases c.refIn <;> cases c.refOut <;> rfl

/-- The host's read of a register that the map has at the offset (R28). -/
theorem hostReadReg_of_regAt {s : State} {off : Nat} {r : Reg} {v : Word} (hr : regAt off = some r)
    (hv : readRegister s r = .ok v) : hostReadReg off 64 s = .next (s.setLastRead v) := by
  simp only [hostReadReg, selectReg, if_true, hr, hv]

/-- Settles O8: each offset selects its register, whose value the host is given. -/
theorem hostReadsReturnRegisters : Obligations.HostReadsReturnRegisters := by
  intro s off h
  rw [step_of_nextAction h]
  refine ⟨fun v hv => ?_, fun i hi => ?_⟩
  · rw [← Cfg.flagsWord_eq] at hv
    simp only [List.mem_cons, List.not_mem_nil, or_false, Prod.mk.injEq] at hv
    rcases hv with ⟨rfl, rfl⟩ | ⟨rfl, rfl⟩ | ⟨rfl, rfl⟩ | ⟨rfl, rfl⟩ | ⟨rfl, rfl⟩ | ⟨rfl, rfl⟩ | ⟨rfl, rfl⟩ |
      ⟨rfl, rfl⟩ | ⟨rfl, rfl⟩ | ⟨rfl, rfl⟩ | ⟨rfl, rfl⟩ | ⟨rfl, rfl⟩ | ⟨rfl, rfl⟩ | ⟨rfl, rfl⟩ <;> rfl
  · subst hi
    refine (hostReadReg_of_regAt (regAt_tableView i) rfl).trans ?_
    rcases ht : s.cfg.table with - | t
    · rw [State.tableView_of_no_table (s := s.advance) ht]
      rfl
    · rw [State.tableView_ofNat (s := s.advance) ht]
      rfl

/-- The registers the host can read stand at the offsets that R24 marks readable. -/
theorem readable_offset {off : Nat} {r : Reg} (h : regAt off = some r) (hr : r ≠ .cmd) :
    off ∈ [0x008, 0x010, 0x018, 0x020, 0x028, 0x030, 0x038, 0x040, 0x048, 0x050, 0x058, 0x060, 0x068, 0x070] ∨
      ∃ i < 256, off = 0x800 + 8 * i := by
  rcases regAt_some h with hm | ⟨i, hi, hoff, -⟩
  · have hnamed : ∀ p ∈ regMap, p.2 ≠ .cmd → p.1 ∈
        [0x008, 0x010, 0x018, 0x020, 0x028, 0x030, 0x038, 0x040, 0x048, 0x050, 0x058, 0x060, 0x068, 0x070] := by
      decide
    exact .inl (hnamed (off, r) hm hr)
  · exact .inr ⟨i, hi, hoff⟩

/-- The registers the host can write (R27). -/
def writableRegs : List Reg := [.cmd, .a, .b, .addr, .len, .dlen]

/-- A write of a register that is not writable is outside the interface (R28). -/
theorem writeRegister_of_not_writable {run : Word → State → Outcome} {r : Reg} {v : Word} {s : State}
    (h : r ∉ writableRegs) : writeRegister run r v s = .fault .badRegisterAccess := by
  cases r
  case cmd | a | b | addr | len | dlen => simp [writableRegs] at h
  all_goals rfl

/-- The writable registers stand at the six offsets of R27. -/
theorem writable_offset {off : Nat} {r : Reg} (h : regAt off = some r) (hr : r ∈ writableRegs) :
    off ∈ [0x000, 0x008, 0x010, 0x018, 0x020, 0x028] := by
  rcases regAt_some h with hm | ⟨i, -, -, rfl⟩
  · have hnamed : ∀ p ∈ regMap, p.2 ∈ writableRegs → p.1 ∈ [0x000, 0x008, 0x010, 0x018, 0x020, 0x028] := by decide
    exact hnamed (off, r) hm hr
  · simp [writableRegs] at hr

/-- An access that names no register is outside the interface (R28). -/
theorem selectReg_error {off bits : Nat} {f : Fault} (h : selectReg off bits = .error f) : f = .badRegisterAccess := by
  unfold selectReg at h
  split at h
  · rcases hr : regAt off with - | r <;> rw [hr] at h <;> cases h
    rfl
  · cases h
    rfl

/-- Settles O9: an access selects no register, or one that stands at an offset of the map that the direction rules out. -/
theorem hostAccessOutsideMapFaults : Obligations.HostAccessOutsideMapFaults := by
  intro s off bits
  refine ⟨fun v h hout => ?_, fun h hout => ?_⟩
  · rw [step_of_nextAction h, hostAct, hostWriteReg]
    rcases hr : selectReg off bits with f | r
    · rw [selectReg_error hr]
      rfl
    · obtain ⟨hbits, hreg⟩ := selectReg_ok hr
      exact writeRegister_of_not_writable fun hw => hout ⟨hbits, writable_offset hreg hw⟩
  · rw [step_of_nextAction h, hostAct, hostReadReg]
    rcases hr : selectReg off bits with f | r
    · rw [selectReg_error hr]
      rfl
    · obtain ⟨hbits, hreg⟩ := selectReg_ok hr
      by_cases hcmd : r = .cmd
      · rw [hcmd]
        rfl
      · exact absurd ⟨hbits, readable_offset hreg hcmd⟩ hout

/-- Settles O14: the read is the one action due, and each register reads as the field that reset left 0. -/
theorem resetRegistersRead : Obligations.ResetRegistersRead := by
  intro p off hoff
  have hread := hostReadsReturnRegisters { State.resetWith p with program := [.readReg off 64] } off rfl
  obtain ⟨hnamed, htable⟩ := hread
  have hstatus : State.status { State.resetWith p with program := [.readReg off 64] } = 0 :=
    State.status_eq_zero rfl rfl
  rcases hoff with hoff | ⟨i, hi, hoff⟩
  · refine ⟨_, hnamed (if off = 0x070 then BitVec.ofNat 64 p.width.bits else 0) ?_, rfl⟩
    rw [hstatus]
    simp only [List.mem_cons, List.not_mem_nil, or_false] at hoff
    rcases hoff with rfl | rfl | rfl | rfl | rfl | rfl | rfl | rfl | rfl | rfl | rfl | rfl | rfl | rfl <;>
      simp [Cfg.empty]
  · refine ⟨_, htable ⟨i, hi⟩ hoff, ?_⟩
    rw [if_neg (by omega)]
    rfl

/-! STATUS and the host's memory -/

/-- Settles O11: STATUS is the union of three one-bit fields. -/
theorem statusBits : Obligations.StatusBits := by
  intro s
  have hbit (j : Nat) : s.status.getLsbD j =
      (s.cfg.name.isSome && decide (j = 0) || s.cfg.table.isSome && decide (j = 1) || s.verifyOk && decide (j = 2)) := by
    simp only [State.status, BitVec.getLsbD_or, bitAt_getLsbD, Nat.reduceLT, Cfg.nameValid, Cfg.tableValid]
  refine ⟨by rw [hbit]; simp, by rw [hbit]; simp, by rw [hbit]; simp, fun i hi => ?_⟩
  rw [hbit, decide_eq_false (by omega), decide_eq_false (by omega), decide_eq_false (by omega)]
  simp

/-- Settles O12: an admitted address is read or written byte for byte, and any other leaves the machine stuck. -/
theorem hostMemoryAccess : Obligations.HostMemoryAccess := by
  intro s a v
  refine ⟨fun h ha hm => ?_, fun h ha => ?_, fun h ha => ?_⟩
  · refine ⟨s.advance.setMem (s.mem.set a v), ?_, rfl, Memory.get_set_eq hm a v, fun x hx => Memory.get_set_ne _ v hx⟩
    rw [step_of_nextAction h, hostAct, hostStore, settle_eq_next]
    exact writeByte_ok_iff.mpr ⟨ha, rfl⟩
  · have hread : readByte s.advance a = .ok (s.mem.get a) := readByte_ok_iff.mpr ⟨ha, rfl⟩
    rw [step_of_nextAction h, hostAct, hostLoad, hread]
    rfl
  · have hno : ¬ s.advance.admits a = true := by rw [s.advance_admits, ha]; nofun
    rcases h with h | h
    · rw [step_of_nextAction h, hostAct, hostStore, settle_eq_fault]
      exact if_neg hno
    · have hread : readByte s.advance a = .error .notAdmitted := if_neg hno
      rw [step_of_nextAction h, hostAct, hostLoad, hread]
      rfl

end Sys2Proof.Machine

namespace Sys2Proof.Machine

/-! PROOFS of the statements about how RESOLVE ends on a name it cannot load, and about two names of one row
(spec/41_resolver.md R110 to R113): reading a name past bytes that do not end it, and the configuration a found row gives. -/

/-- RESOLVE on an absent name releases the context (R112). -/
theorem execResolve_of_absent {s : State} (ct : Bool) (h : s.nameAddr = 0) :
    execResolve ct s = .next (releaseContext s) :=
  if_pos ((absent_eq_true _).mpr h)

/-- Settles O19: the name operand is A cut to its AW low bits, and a name at 0 is absent. -/
theorem resolveAbsentNameEmpties : Obligations.ResolveAbsentNameEmpties := by
  intro s ct h
  rw [← s.nameAddr_eq] at h
  exact execResolve_of_absent ct h

/-- RESOLVE ends with the fault that stops the reading of its name (R110, R111). -/
theorem execResolve_of_error {s : State} {f : Fault} (ct : Bool) (ha : s.nameAddr ≠ 0)
    (h : readName s s.nameAddr = .error f) : execResolve ct s = .fault f := by
  rw [execResolve, if_neg (mt (absent_eq_true _).mp ha), h]
  rfl

/-- Reading a name goes past admitted bytes that do not end it, and stops where reading on from there stops (R113). -/
theorem readNameFrom_past_nonzero {s : State} {a k j : Nat} {f : Fault} (hadm : s.AdmitsRange a k)
    (hbytes : ∀ v ∈ s.bytesAt a k, v ≠ 0) (h : readNameFrom s (a + k) j = .error f) :
    readNameFrom s a (j + k) = .error f := by
  induction k generalizing a with
  | zero => exact h
  | succ k ih =>
    rw [State.admitsRange_succ] at hadm
    rw [State.bytesAt_succ, List.forall_mem_cons] at hbytes
    have hrest : readNameFrom s (a + 1) (j + k) = .error f :=
      ih hadm.2 hbytes.2 (by rwa [Nat.add_assoc, Nat.add_comm 1 k])
    rw [← Nat.add_assoc, readNameFrom, readByte_ok_iff.mpr ⟨hadm.1, rfl⟩]
    simp only [if_neg hbytes.1, hrest]

/-- Settles O20: past the k bytes there is no address left, or the next one is not admitted. -/
theorem resolveNameWithoutEndStops : Obligations.ResolveNameWithoutEndStops := by
  intro s ct k ha hadm hbytes
  rw [← s.nameAddr_eq] at ha hadm hbytes ⊢
  refine ⟨fun htop => execResolve_of_error ct ha ?_, fun hlt hno => execResolve_of_error ct ha ?_⟩
  · have hleft : s.space - s.nameAddr = 0 + k := by
      rw [State.space]
      omega
    rw [readName, hleft]
    exact readNameFrom_past_nonzero hadm hbytes rfl
  · obtain ⟨j, hj⟩ := Nat.exists_eq_add_of_lt hlt
    have hleft : s.space - s.nameAddr = j + 1 + k := by
      rw [State.space]
      omega
    have hstuck : readByte s (s.nameAddr + k) = .error .notAdmitted := if_neg (ne_true_of_eq_false hno)
    rw [readName, hleft]
    refine readNameFrom_past_nonzero hadm hbytes ?_
    rw [readNameFrom, hstuck]

/-- CFG after RESOLVE has loaded a row (R116 to R118). -/
theorem execResolve_cfg {s t : State} {ct : Bool} {nm : Name} {row : CatalogRow} (ha : s.nameAddr ≠ 0)
    (hn : s.NameAt s.nameAddr nm) (hrow : findRow s.params.catalogue nm = some row) (h : execResolve ct s = .next t) :
    t.cfg = { Cfg.ofRow row nm with
      table := if ct && Config.allocOk s.draws then some (buildTable ((Cfg.ofRow row nm).datapath s.w)) else none } := by
  rw [execResolve_of_nameAt ct ha hn, loadByName_of_findRow_some (s := releaseContext s) ct hrow] at h
  obtain rfl := Host.Outcome.next.inj h
  rfl

/-- Settles O21: what a row loads depends on the name in the stored name alone. -/
theorem aliasesLoadTheSameConfiguration : Obligations.AliasesLoadTheSameConfiguration := by
  intro s₁ s₂ t₁ t₂ ct nm₁ nm₂ row hparams hdraws ha₁ ha₂ hn₁ hn₂ hrow₁ hrow₂ h₁ h₂
  rw [execResolve_cfg ha₁ hn₁ hrow₁ h₁, execResolve_cfg ha₂ hn₂ (hparams ▸ hrow₂) h₂, ← hdraws, State.w, State.w, ← hparams]
  exact ⟨rfl, rfl, rfl⟩

end Sys2Proof.Machine

namespace Sys2Proof.Machine

/-! PROOFS of the statement about faults (spec/60_exceptions.md R203): the list of the faults each command
can end with. -/

/-- The outcome is a next state or one of the faults listed, and so no refusal. -/
def FaultsOnly (o : Outcome) (fs : List Fault) : Prop := (∃ t, o = .next t) ∨ ∃ f ∈ fs, o = .fault f

theorem FaultsOnly.next (t : State) (fs : List Fault) : FaultsOnly (.next t) fs := .inl ⟨t, rfl⟩

theorem FaultsOnly.raise {f : Fault} {fs : List Fault} (h : f ∈ fs) : FaultsOnly (raise f) fs := .inr ⟨f, h, rfl⟩

theorem FaultsOnly.settle {e : Except Fault State} {fs : List Fault} (h : ∀ f, e = .error f → f ∈ fs) :
    FaultsOnly (settle e) fs := by
  cases e with
  | ok t => exact .next t fs
  | error f => exact .raise (h f rfl)

theorem FaultsOnly.mem_of_fault {o : Outcome} {fs : List Fault} {f : Fault} (h : FaultsOnly o fs)
    (hf : o = .fault f) : f ∈ fs := by
  rcases h with ⟨t, rfl⟩ | ⟨g, hg, rfl⟩
  · cases hf
  · cases hf
    exact hg

theorem FaultsOnly.ne_refused {o : Outcome} {fs : List Fault} (h : FaultsOnly o fs) (r : Refusal) :
    o ≠ .refused r := by
  rcases h with ⟨t, rfl⟩ | ⟨g, -, rfl⟩ <;> nofun

/-- The faults of a command that accesses a range of memory (R54, R55). -/
def rangeFaults : List Fault := [.rangeWrap, .notAdmitted]

theorem insertBytes_error_mem {n : Nat} {s : State} {p : Nat} {v : BitVec n} {be : Bool} {f : Fault}
    (h : insertBytes s p v be = .error f) : f ∈ rangeFaults := by
  rw [insertBytes_error h]
  decide

theorem calcBuffer_error_mem {s : State} {base len : Nat} {f : Fault} (h : calcBuffer s base len = .error f) :
    f ∈ rangeFaults := by
  rcases calcBuffer_error h with rfl | rfl <;> decide

theorem execInsert_faultsOnly (n : Width) (be : Bool) (s : State) : FaultsOnly (execInsert n be s) rangeFaults := by
  unfold execInsert
  split
  · exact .next s _
  · split
    · exact .settle fun _ => insertBytes_error_mem
    · exact .raise (by decide)

theorem execResolve_faultsOnly (ct : Bool) (s : State) :
    FaultsOnly (execResolve ct s) [.unterminatedName, .notAdmitted] := by
  unfold execResolve
  split
  · exact .next _ _
  · rcases hr : readName s s.nameAddr with f | nm
    · refine .raise ?_
      rcases readNameFrom_error hr with rfl | rfl <;> decide
    · exact .next _ _

theorem execCalculate_faultsOnly (s : State) : FaultsOnly (execCalculate s) rangeFaults := by
  unfold execCalculate
  rcases hc : calcBuffer s s.bufAddr s.bufLen with f | r
  · exact .raise (calcBuffer_error_mem hc)
  · exact .next _ _

theorem execCalcAppend_faultsOnly (s : State) : FaultsOnly (execCalcAppend s) rangeFaults := by
  unfold execCalcAppend
  split
  · exact .next s _
  · split
    · rcases hc : calcBuffer s s.bufAddr s.dataLen with f | r
      · exact .raise (calcBuffer_error_mem hc)
      · exact .settle fun _ => insertBytes_error_mem
    · exact .raise (by decide)

theorem execVerify_faultsOnly (s : State) : FaultsOnly (execVerify s) rangeFaults := by
  unfold execVerify
  split
  · exact .next _ _
  · rcases hc : calcBuffer s s.bufAddr s.bufLen with f | r
    · exact .raise (calcBuffer_error_mem hc)
    · exact .next _ _

/-- The faults each command can end with (R203). -/
def faultsOf : Instr → List Fault
  | .reflect _ => []
  | .insert _ _ => rangeFaults
  | .resolve _ => [.unterminatedName, .notAdmitted]
  | .calcPartial _ _ => []
  | .calculate => rangeFaults
  | .calcAppend => rangeFaults
  | .verify => rangeFaults
  | .release => []

theorem exec_faultsOnly (i : Instr) (s : State) : FaultsOnly (exec i s) (faultsOf i) := by
  cases i with
  | reflect n => exact .next _ _
  | insert n be => exact execInsert_faultsOnly n be s
  | resolve ct => exact execResolve_faultsOnly ct s
  | calcPartial first last => exact .next _ _
  | calculate => exact execCalculate_faultsOnly s
  | calcAppend => exact execCalcAppend_faultsOnly s
  | verify => exact execVerify_faultsOnly s
  | release => exact .next _ _

/-- The faults of a command are those its mnemonic is listed for (R203). -/
theorem faultsOf_listed {i : Instr} {f : Fault} (h : f ∈ faultsOf i) :
    (f = .rangeWrap ∧ i.mnemonic ∈ ["INSERT", "CALCULATE", "CALC_APPEND", "VERIFY"]) ∨
      (f = .unterminatedName ∧ i.mnemonic = "RESOLVE") ∨
      (f = .notAdmitted ∧ i.mnemonic ∈ ["INSERT", "RESOLVE", "CALCULATE", "CALC_APPEND", "VERIFY"]) := by
  cases i with
  | reflect n | calcPartial first last | release => exact absurd h List.not_mem_nil
  | insert n be | calculate | calcAppend | verify | resolve ct =>
    rcases List.mem_pair.mp h with rfl | rfl <;> simp [Instr.mnemonic]

/-- Settles O45: every command answers a next state or one of its own faults. -/
theorem commandsFaultOnlyAsListed : Obligations.CommandsFaultOnlyAsListed := fun i s =>
  ⟨fun _ hf => faultsOf_listed ((exec_faultsOnly i s).mem_of_fault hf), (exec_faultsOnly i s).ne_refused⟩

end Sys2Proof.Machine

namespace Sys2Proof.Machine

/-! PROOFS of the statements about the memory a command reads and stores to (spec/20_memory.md R52, R53): what a command does
from another memory that has the same bytes in its read range. -/

/-- From `s` a command answers `t`, and from `s` with memory `m` it answers `t'`: the two are the same outside memory, neither
changes a byte outside `P`, and in canonical form both hold the same bytes in `P`. -/
def StoresAlike (s : State) (m : Memory) (t t' : State) (P : Nat → Prop) : Prop :=
  t' = { t with mem := t'.mem } ∧ (∀ x, ¬ P x → t'.mem.get x = m.get x ∧ t.mem.get x = s.mem.get x) ∧
    (s.mem.wf → m.wf → ∀ x, P x → t'.mem.get x = t.mem.get x)

/-- A command that leaves memory alone stores nothing, from either memory. -/
theorem storesAlike_of_no_store {s t : State} (m : Memory) {P : Nat → Prop} (hmem : t.mem = s.mem) (hP : ∀ x, ¬ P x) :
    StoresAlike s m t (t.setMem m) P :=
  ⟨rfl, fun x _ => ⟨rfl, congrArg (Memory.get · x) hmem⟩, fun _ _ x hx => absurd hx (hP x)⟩

/-- The bytes of a value are stored alike whatever memory holds (R103). -/
theorem insertBytes_storesAlike {n : Nat} {s t : State} {p : Nat} {v : BitVec n} {be : Bool} (m : Memory)
    (h : insertBytes s p v be = .ok t) :
    ∃ t', insertBytes (s.setMem m) p v be = .ok t' ∧ StoresAlike s m t t' fun x => p ≤ x ∧ x < p + n / 8 := by
  obtain ⟨hadm, hmem, hframe, hbytes⟩ := insertBytes_ok h
  obtain ⟨t', ht'⟩ := insertBytes_of_admits (s := s.setMem m) v be hadm
  obtain ⟨-, hmem', hframe', hbytes'⟩ := insertBytes_ok ht'
  refine ⟨t', ht', ?_, fun x hx => ?_, fun hwf hwf' x ⟨hlo, hhi⟩ => ?_⟩
  · rw [hmem', hmem]
    rfl
  · exact ⟨hframe' x (by omega), hframe x (by omega)⟩
  · obtain ⟨i, rfl⟩ := Nat.exists_eq_add_of_le hlo
    have hi : i < n / 8 := by omega
    rw [(hbytes' hwf').2 i hi, (hbytes hwf).2 i hi]

section OtherMemory

variable {s : State} {m : Memory}

theorem State.bytesAt_setMem {a k : Nat} (h : ∀ x, a ≤ x → x < a + k → m.get x = s.mem.get x) :
    (s.setMem m).bytesAt a k = s.bytesAt a k := by
  refine List.map_congr_left fun i hi => ?_
  have hi : i < k := List.mem_range.mp hi
  exact h (a + i) (by omega) (by omega)

/-- A name is read alike from two memories with the same bytes from its start to its 0x00 byte (R113). -/
theorem State.nameAt_setMem {a : Nat} {nm : Name} (hn : s.NameAt a nm)
    (h : ∀ x, a ≤ x → x ≤ a + nm.length → m.get x = s.mem.get x) : (s.setMem m).NameAt a nm := by
  obtain ⟨hadm, hbytes, hnonzero, hend⟩ := hn
  refine ⟨hadm, ?_, hnonzero, ?_⟩
  · rw [State.bytesAt_setMem fun x hlo hhi => h x hlo hhi.le, hbytes]
  · rw [State.setMem_mem, h _ (by omega) le_rfl, hend]

/-- `calc` answers alike from two memories with the same bytes in its buffer (R170). -/
theorem calcBuffer_setMem {base len : Nat} {r : BitVec s.w} (hc : calcBuffer s base len = .ok r)
    (h : base ≠ 0 → ∀ x, base ≤ x → x < base + len → m.get x = s.mem.get x) :
    calcBuffer (s.setMem m) base len = .ok r := by
  rcases calcBuffer_ok hc with ⟨rfl, rfl⟩ | ⟨hb, rfl, rfl⟩ | ⟨hb, -, hs, hadm, rfl⟩
  · exact calcBuffer_absent _ len
  · exact calcBuffer_zero hb
  · rw [← State.bytesAt_setMem (h hb)]
    exact calcBuffer_of_admits (s := s.setMem m) hb hs hadm

theorem loadByName_setMem (ct : Bool) (nm : Name) :
    loadByName ct nm (releaseContext (s.setMem m)) = (loadByName ct nm (releaseContext s)).setMem m := by
  rcases hf : findRow s.params.catalogue nm with - | row
  · rw [loadByName_of_findRow_none (s := releaseContext (s.setMem m)) ct hf,
      loadByName_of_findRow_none (s := releaseContext s) ct hf]
    rfl
  · rw [loadByName_of_findRow_some (s := releaseContext (s.setMem m)) ct hf,
      loadByName_of_findRow_some (s := releaseContext s) ct hf]
    rfl

/-! The commands from another memory -/

theorem execInsert_setMem {n : Width} {be : Bool} {t : State} (h : execInsert n be s = .next t) :
    ∃ t', execInsert n be (s.setMem m) = .next t' ∧ StoresAlike s m t t' (s.Stores (.insert n be)) := by
  rcases execInsert_next h with ⟨hg, rfl⟩ | ⟨ha, hl, hs, hins⟩
  · rw [t.bufAddr_eq_zero, ← n.bits_div] at hg
    refine ⟨_, execInsert_of_guard (s := t.setMem m) be hg, storesAlike_of_no_store m rfl fun x hx => ?_⟩
    obtain ⟨⟨ha, hl⟩, -⟩ := hx
    exact hg.elim ha hl.not_gt
  · rw [ne_eq, s.bufAddr_eq_zero] at ha
    rw [← n.bits_div] at hl hs
    obtain ⟨t', ht', hmem, hframe, hbytes⟩ := insertBytes_storesAlike m hins
    refine ⟨t', (execInsert_in_space (s := s.setMem m) be ha hl hs).trans ?_, hmem, fun x hx => hframe x ?_,
      fun hwf hwf' x hx => hbytes hwf hwf' x hx.2⟩
    · rw [settle_eq_next]
      exact ht'
    · exact fun hx' => hx ⟨⟨ha, hl⟩, hx'⟩

theorem execResolve_setMem {ct : Bool} {t : State} (h : execResolve ct s = .next t)
    (hread : ∀ x, s.Reads (.resolve ct) x → m.get x = s.mem.get x) :
    execResolve ct (s.setMem m) = .next (t.setMem m) := by
  rcases execResolve_next h with ⟨ha, rfl⟩ | ⟨ha, nm, hn, rfl⟩
  · exact execResolve_of_absent (s := s.setMem m) ct ha
  · have hn' : (s.setMem m).NameAt s.nameAddr nm :=
      State.nameAt_setMem hn fun x hlo hhi => hread x ⟨ha, nm, hn, hlo, hhi⟩
    rw [execResolve_of_nameAt (s := s.setMem m) ct ha hn', loadByName_setMem]

theorem execCalculate_setMem {t : State} (h : execCalculate s = .next t)
    (hread : ∀ x, s.Reads .calculate x → m.get x = s.mem.get x) :
    execCalculate (s.setMem m) = .next (t.setMem m) := by
  obtain ⟨r, hc, rfl⟩ := execCalculate_next h
  have hc' : calcBuffer (s.setMem m) s.bufAddr s.bufLen = .ok r :=
    calcBuffer_setMem hc fun ha x hlo hhi => hread x ⟨mt s.bufAddr_eq_zero.mpr ha, hlo, hhi⟩
  exact execCalculate_of_ok (s := s.setMem m) hc'

theorem execCalcAppend_setMem {t : State} (h : execCalcAppend s = .next t)
    (hread : ∀ x, s.Reads .calcAppend x → m.get x = s.mem.get x) :
    ∃ t', execCalcAppend (s.setMem m) = .next t' ∧ StoresAlike s m t t' (s.Stores .calcAppend) := by
  rcases execCalcAppend_next h with ⟨hg, rfl⟩ | ⟨ha, hl, hs, r, hc, hins⟩
  · rw [t.bufAddr_eq_zero, t.wBytes_eq] at hg
    refine ⟨_, execCalcAppend_of_guard (s := t.setMem m) hg, storesAlike_of_no_store m rfl fun x hx => ?_⟩
    obtain ⟨⟨ha, hl⟩, -⟩ := hx
    exact hg.elim ha hl.not_gt
  · rw [ne_eq, s.bufAddr_eq_zero] at ha
    rw [s.wBytes_eq] at hl hs
    rw [← Nat.add_assoc] at hs
    have hc' : calcBuffer (s.setMem m) s.bufAddr s.dataLen = .ok r :=
      calcBuffer_setMem hc fun _ x hlo hhi => hread x ⟨⟨ha, hl⟩, hlo, hhi⟩
    obtain ⟨t', ht', hmem, hframe, hbytes⟩ := insertBytes_storesAlike m hins
    refine ⟨t', (execCalcAppend_in_space (s := s.setMem m) ha hl hs).trans ?_, hmem, fun x hx => hframe x ?_,
      fun hwf hwf' x hx => hbytes hwf hwf' x hx.2⟩
    · rw [settle_eq_next]
      exact (congrArg (· >>= _) hc').trans ht'
    · exact fun hx' => hx ⟨⟨ha, hl⟩, hx'⟩

theorem execVerify_setMem {t : State} (h : execVerify s = .next t)
    (hread : ∀ x, s.Reads .verify x → m.get x = s.mem.get x) : execVerify (s.setMem m) = .next (t.setMem m) := by
  rcases execVerify_next h with ⟨hg, rfl⟩ | ⟨ha, hl, r, hc, rfl⟩
  · rw [s.bufAddr_eq_zero, s.wBytes_eq] at hg
    exact execVerify_of_guard (s := s.setMem m) hg
  · rw [ne_eq, s.bufAddr_eq_zero] at ha
    rw [s.wBytes_eq] at hl
    have hc' : calcBuffer (s.setMem m) s.bufAddr s.bufLen = .ok r :=
      calcBuffer_setMem hc fun _ x hlo hhi => hread x ⟨⟨ha, hl⟩, hlo, hhi⟩
    exact execVerify_of_calc_ok (s := s.setMem m) ha hl hc'

end OtherMemory

/-- Settles O47: INSERT and CALC_APPEND store the same bytes from either memory, and every other command leaves memory alone. -/
theorem commandsReadOnlyTheirRange : Obligations.CommandsReadOnlyTheirRange := by
  intro i s t m h hread
  show ∃ t', exec i (s.setMem m) = .next t' ∧ StoresAlike s m t t' (s.Stores i)
  cases i with
  | reflect n =>
    obtain rfl := Host.Outcome.next.inj h
    exact ⟨_, rfl, storesAlike_of_no_store m rfl fun _ => id⟩
  | insert n be => exact execInsert_setMem h
  | resolve ct =>
    obtain ⟨c, d, rfl, -⟩ := execResolve_writes h
    exact ⟨_, execResolve_setMem h hread, storesAlike_of_no_store m rfl fun _ => id⟩
  | calcPartial first last =>
    obtain rfl := Host.Outcome.next.inj h
    exact ⟨_, rfl, storesAlike_of_no_store m rfl fun _ => id⟩
  | calculate =>
    obtain ⟨r, -, rfl⟩ := execCalculate_next h
    exact ⟨_, execCalculate_setMem h hread, storesAlike_of_no_store m rfl fun _ => id⟩
  | calcAppend => exact execCalcAppend_setMem h hread
  | verify =>
    obtain ⟨ok, rfl⟩ := execVerify_writes h
    exact ⟨_, execVerify_setMem h hread, storesAlike_of_no_store m rfl fun _ => id⟩
  | release =>
    obtain rfl := Host.Outcome.next.inj h
    exact ⟨_, rfl, storesAlike_of_no_store m rfl fun _ => id⟩

/-- A register that is not 0 is not 0 as a number. -/
theorem addr_pos {s : State} (h : s.addr ≠ 0) : 0 < s.addr.toNat :=
  Nat.pos_of_ne_zero (mt s.bufAddr_eq_zero.mp h)

/-- No command reads address 0 (R53). -/
theorem State.not_reads_zero (s : State) (i : Instr) : ¬ s.Reads i 0 := by
  intro h
  cases i with
  | reflect n | insert n be | calcPartial first last | release => exact h
  | resolve ct =>
    obtain ⟨ha, nm, -, hlo, -⟩ := h
    omega
  | calculate =>
    obtain ⟨ha, hlo, -⟩ := h
    exact hlo.not_gt (addr_pos ha)
  | calcAppend | verify =>
    obtain ⟨⟨ha, -⟩, hlo, -⟩ := h
    exact hlo.not_gt (addr_pos ha)

/-- No command stores to address 0 (R53). -/
theorem State.not_stores_zero (s : State) (i : Instr) : ¬ s.Stores i 0 := by
  intro h
  cases i with
  | reflect n | resolve ct | calcPartial first last | calculate | verify | release => exact h
  | insert n be | calcAppend =>
    obtain ⟨⟨ha, -⟩, hlo, -⟩ := h
    have := addr_pos ha
    omega

/-- Settles O46: address 0 is in no read range and in no store range. -/
theorem addressZeroIsNeverAccessed : Obligations.AddressZeroIsNeverAccessed := by
  intro i s t m h hm
  have hread (x : Nat) (hx : s.Reads i x) : m.get x = s.mem.get x :=
    hm x fun h0 => s.not_reads_zero i (h0 ▸ hx)
  obtain ⟨t', ht', hmem, hframe, hbytes⟩ := commandsReadOnlyTheirRange i s t m h hread
  obtain ⟨hzero', hzero⟩ := hframe 0 (s.not_stores_zero i)
  refine ⟨hzero, t', ht', hmem, hzero', fun hwf hwf' x hx => ?_⟩
  by_cases hstore : s.Stores i x
  · exact hbytes hwf hwf' x hstore
  · obtain ⟨ht'x, htx⟩ := hframe x hstore
    rw [ht'x, htx, hm x hx]

end Sys2Proof.Machine

namespace Sys2Proof.Machine

/-! PROOFS of the statements about the two datapaths (spec/42_kernel.md R130 to R144; spec/43_table_generator.md R160 to R162).
The register update of the bitwise path is linear over XOR, and on a register whose top byte is 0 it is a shift by a byte.
So the update of any register is that of its top byte alone, which is a table entry, XORed with the register shifted by a byte. -/

variable {n : Nat}

/-! Reflection -/

theorem reflect_xor (a b : BitVec n) : reflect (a ^^^ b) = reflect a ^^^ reflect b := by
  refine BitVec.eq_of_getLsbD_eq fun i hi => ?_
  rw [BitVec.getLsbD_xor, reflect_getLsbD, reflect_getLsbD, reflect_getLsbD, BitVec.getLsbD_xor, Bool.and_xor_distrib_left]

@[simp] theorem reflect_zero : reflect 0#n = 0#n := by
  refine BitVec.eq_of_getLsbD_eq fun i _ => ?_
  rw [reflect_getLsbD, BitVec.getLsbD_zero, BitVec.getLsbD_zero, Bool.and_false]

/-- Reflection turns a left shift into a right shift. -/
theorem reflect_shiftLeft (v : BitVec n) (j : Nat) : reflect (v <<< j) = reflect v >>> j := by
  refine BitVec.eq_of_getLsbD_eq fun i hi => ?_
  rw [reflect_getLsbD, BitVec.getLsbD_shiftLeft, BitVec.getLsbD_ushiftRight, reflect_getLsbD]
  by_cases hij : j + i < n
  · have hlow : ¬ n - 1 - i < j := by omega
    have hlt : n - 1 - i < n := by omega
    have hsub : n - 1 - i - j = n - 1 - (j + i) := by omega
    simp [hi, hij, hlow, hlt, hsub]
  · have hlow : n - 1 - i < j := by omega
    simp [hij, hlow]

/-! The top byte of a register -/

/-- The byte at the top of a register, where R130 folds a byte in and where R136 takes its index from. -/
def topByte (v : BitVec n) : Byte := (v >>> (n - 8)).setWidth 8

/-- A byte at the top of an otherwise zero register (R130). -/
def placeTop (n : Nat) (b : Byte) : BitVec n := b.setWidth n <<< (n - 8)

/-- The byte as the fold of R130 takes it in: reflected with REFIN. -/
def inputByte (k : Datapath n) (b : Byte) : Byte := if k.refIn then reflect b else b

theorem foldByte_eq (k : Datapath n) (r : BitVec n) (b : Byte) : foldByte k r b = r ^^^ placeTop n (inputByte k b) := rfl

theorem inputByte_zero (k : Datapath n) : inputByte k 0 = 0 := by simp [inputByte]

theorem placeTop_zero : placeTop n 0 = 0 := by simp [placeTop]

theorem placeTop_xor (b c : Byte) : placeTop n (b ^^^ c) = placeTop n b ^^^ placeTop n c := by
  simp only [placeTop, BitVec.setWidth_xor, BitVec.shiftLeft_xor_distrib]

section Bytes

variable (h8 : 8 ≤ n)
include h8

/-- The byte at the top is shifted out by a shift of one byte. -/
theorem placeTop_shiftLeft (b : Byte) : placeTop n b <<< 8 = 0#n := by
  rw [placeTop, ← BitVec.shiftLeft_add]
  exact BitVec.shiftLeft_eq_zero (by omega)

/-- A register agrees with its top byte in its top eight bits. -/
theorem placeTop_topByte_getLsbD (v : BitVec n) {i : Nat} (hlo : n - 8 ≤ i) (hi : i < n) :
    (placeTop n (topByte v)).getLsbD i = v.getLsbD i := by
  have h1 : i - (n - 8) < n := by omega
  have h2 : i - (n - 8) < 8 := by omega
  have h3 : n - 8 + (i - (n - 8)) = i := by omega
  simp [placeTop, topByte, hi, hlo.not_gt, h1, h2, h3]

/-- The low byte of a reflected register is its reflected top byte. -/
theorem setWidth_reflect (v : BitVec n) : (reflect v).setWidth 8 = reflect (topByte v) := by
  refine BitVec.eq_of_getLsbD_eq fun i hi => ?_
  have h1 : i < n := by omega
  have h2 : 8 - 1 - i < 8 := by omega
  have h3 : n - 8 + (8 - 1 - i) = n - 1 - i := by omega
  rw [BitVec.getLsbD_setWidth, reflect_getLsbD, reflect_getLsbD, topByte, BitVec.getLsbD_setWidth,
    BitVec.getLsbD_ushiftRight, h3]
  simp [hi, h1, h2]

end Bytes

/-! The step of the bitwise path -/

theorem shiftStep_xor (k : Datapath n) (a b : BitVec n) :
    shiftStep k (a ^^^ b) = shiftStep k a ^^^ shiftStep k b := by
  unfold shiftStep
  rw [BitVec.getLsbD_xor, BitVec.shiftLeft_xor_distrib]
  cases a.getLsbD (n - 1) <;> cases b.getLsbD (n - 1)
  · rfl
  · exact BitVec.xor_assoc _ _ _
  · simp only [Bool.true_xor, Bool.not_false, if_true, Bool.false_eq_true, if_false]
    rw [BitVec.xor_assoc, BitVec.xor_assoc, BitVec.xor_comm (b <<< 1)]
  · simp only [Bool.true_xor, Bool.not_true, Bool.false_eq_true, if_false, if_true]
    rw [BitVec.xor_assoc, BitVec.xor_comm k.poly, BitVec.xor_assoc, BitVec.xor_self, BitVec.xor_zero]

theorem iterate_shiftStep_xor (k : Datapath n) (j : Nat) (a b : BitVec n) :
    (shiftStep k)^[j] (a ^^^ b) = (shiftStep k)^[j] a ^^^ (shiftStep k)^[j] b := by
  induction j generalizing a b with
  | zero => rfl
  | succ j ih => rw [Function.iterate_succ_apply, shiftStep_xor, ih]; rfl

theorem divide8_xor (k : Datapath n) (a b : BitVec n) : divide8 k (a ^^^ b) = divide8 k a ^^^ divide8 k b :=
  iterate_shiftStep_xor k 8 a b

/-- Steps on a register whose top bits are 0 only shift (R131). -/
theorem iterate_shiftStep_of_top_zero (k : Datapath n) (j : Nat) {v : BitVec n}
    (h : ∀ i, n - j ≤ i → v.getLsbD i = false) : (shiftStep k)^[j] v = v <<< j := by
  induction j generalizing v with
  | zero => exact (BitVec.shiftLeft_zero v).symm
  | succ j ih =>
    have hstep : shiftStep k v = v <<< 1 := by
      rw [shiftStep, h (n - 1) (by omega)]
      rfl
    rw [Function.iterate_succ_apply, hstep, ih, ← BitVec.shiftLeft_add, Nat.add_comm]
    intro i hi
    rw [BitVec.getLsbD_shiftLeft]
    by_cases hlow : i < 1
    · simp [hlow]
    · simp [h (i - 1) (by omega)]

theorem divide8_zero (k : Datapath n) : divide8 k 0 = 0 := by
  refine (iterate_shiftStep_of_top_zero k 8 fun i _ => ?_).trans ?_
  · exact BitVec.getLsbD_zero
  · exact BitVec.zero_shiftLeft 8

/-- Eight steps act on the top byte of a register alone, and shift the rest of it up by a byte. -/
theorem divide8_eq_topByte (k : Datapath n) (h8 : 8 ≤ n) (v : BitVec n) :
    divide8 k v = divide8 k (placeTop n (topByte v)) ^^^ v <<< 8 := by
  have hsplit : v = placeTop n (topByte v) ^^^ (placeTop n (topByte v) ^^^ v) := by
    rw [← BitVec.xor_assoc, BitVec.xor_self, BitVec.zero_xor]
  have hlow : divide8 k (placeTop n (topByte v) ^^^ v) = v <<< 8 := by
    refine (iterate_shiftStep_of_top_zero k 8 fun i hi => ?_).trans ?_
    · rw [BitVec.getLsbD_xor]
      by_cases hin : i < n
      · rw [placeTop_topByte_getLsbD h8 v hi hin, Bool.xor_self]
      · rw [BitVec.getLsbD_of_ge _ _ (by omega), BitVec.getLsbD_of_ge _ _ (by omega), Bool.xor_self]
    · rw [BitVec.shiftLeft_xor_distrib, placeTop_shiftLeft h8, BitVec.zero_xor]
  calc divide8 k v
    _ = divide8 k (placeTop n (topByte v) ^^^ (placeTop n (topByte v) ^^^ v)) := by rw [← hsplit]
    _ = divide8 k (placeTop n (topByte v)) ^^^ v <<< 8 := by rw [divide8_xor, hlow]

/-- The register update of the bitwise path on one byte, before any finalization (R134). -/
def absorb (k : Datapath n) (r : BitVec n) (b : Byte) : BitVec n := divide8 k (foldByte k r b)

theorem bitwisePartial_not_last (k : Datapath n) (r : BitVec n) (b : Byte) (first : Bool) :
    bitwisePartial k r b first false = absorb k r b := rfl

theorem bitwisePartial_last (k : Datapath n) (r : BitVec n) (b : Byte) (first : Bool) :
    bitwisePartial k r b first true = finalizeBitwise k (absorb k r b) := rfl

/-- From register 0 the update depends on the byte as folded in. -/
theorem absorb_zero (k : Datapath n) (b : Byte) : absorb k 0 b = divide8 k (placeTop n (inputByte k b)) := by
  simp only [absorb, foldByte_eq, BitVec.ofNat_eq_ofNat, BitVec.zero_xor]

/-- The update of any register is that of register 0 on its top byte XORed with the byte, and the shift of the register. -/
theorem absorb_eq_topByte (k : Datapath n) (h8 : 8 ≤ n) (r : BitVec n) (b : Byte) :
    absorb k r b = divide8 k (placeTop n (topByte r ^^^ inputByte k b)) ^^^ r <<< 8 := by
  rw [absorb, foldByte_eq, divide8_xor, divide8_eq_topByte k h8 r, placeTop_xor, divide8_xor, BitVec.xor_assoc,
    BitVec.xor_comm (r <<< 8), BitVec.xor_assoc]

/-! The entries of the table -/

theorem finalizeBitwise_of_refOut {k : Datapath n} (h : k.refOut = true) (r : BitVec n) :
    finalizeBitwise k r = reflect r ^^^ reflect k.xorOut := by
  rw [finalizeBitwise, if_pos h, reflect_xor]

theorem finalizeBitwise_of_not_refOut {k : Datapath n} (h : k.refOut = false) (r : BitVec n) :
    finalizeBitwise k r = r ^^^ k.xorOut := by
  rw [finalizeBitwise, h]
  rfl

theorem tableEntry_of_refOut {k : Datapath n} (h : k.refOut = true) (i : Byte) :
    tableEntry k i = reflect (absorb k 0 i) ^^^ reflect k.xorOut ^^^ k.xorOut := by
  rw [tableEntry, bitwisePartial_last, finalizeBitwise_of_refOut h]

theorem tableEntry_of_not_refOut {k : Datapath n} (h : k.refOut = false) (i : Byte) :
    tableEntry k i = absorb k 0 i := by
  rw [tableEntry, bitwisePartial_last, finalizeBitwise_of_not_refOut h, BitVec.xor_assoc, BitVec.xor_self, BitVec.xor_zero]

/-- With REFOUT and a palindromic XOROUT an entry is the reflected update of register 0 (R161). -/
theorem tableEntry_of_palindrome {k : Datapath n} (h : k.refOut = true) (hx : reflect k.xorOut = k.xorOut) (i : Byte) :
    tableEntry k i = reflect (absorb k 0 i) := by
  rw [tableEntry_of_refOut h, hx, BitVec.xor_assoc, BitVec.xor_self, BitVec.xor_zero]

/-- Settles O33: the XOR with XOROUT undoes that of the finalization, up to the reflection. -/
theorem tableEntryClosedForm : Obligations.TableEntryClosedForm := by
  intro w k i
  cases hout : k.refOut with
  | true => exact tableEntry_of_refOut hout i
  | false => exact tableEntry_of_not_refOut hout i

/-- Widening loses nothing. -/
theorem zext64_eq_zero_iff (h : n ≤ 64) (v : BitVec n) : zext64 v = 0 ↔ v = 0 := by
  rw [← BitVec.toNat_inj, zext64_toNat v h, ← BitVec.toNat_inj]
  rfl

/-- Settles O34: the update of register 0 on byte 0 is 0, so entry 0 is the XOR of XOROUT with its reflection. -/
theorem tableEntryZeroVanishes : Obligations.TableEntryZeroVanishes := by
  intro w k
  have hzero : absorb k 0 0 = 0 := by rw [absorb_zero, inputByte_zero, placeTop_zero, divide8_zero]
  rw [buildTable_getElem k 0 (by decide), zext64_eq_zero_iff w.bits_le]
  show tableEntry k 0 = 0 ↔ _
  cases hout : k.refOut with
  | true =>
    rw [tableEntry_of_refOut hout, hzero]
    simp
  | false =>
    rw [tableEntry_of_not_refOut hout, hzero]
    simp

/-! The table path over the built table -/

section BuiltTable

variable (k : Datapath n) (h8 : 8 ≤ n)
include h8

/-- The normal step over the built table is the register update of the bitwise path (R136, R142). -/
theorem tableStepNormal_builtTable (hin : k.refIn = false) (hout : k.refOut = false) (r : BitVec n) (b : Byte) :
    tableStepNormal (builtTable k) r b = absorb k r b := by
  have hindex : (r >>> (n - 8) ^^^ b.setWidth n).setWidth 8 = topByte r ^^^ b := by
    rw [BitVec.setWidth_xor, BitVec.setWidth_setWidth_of_le _ h8, BitVec.setWidth_eq, topByte]
  have hinput (c : Byte) : inputByte k c = c := by rw [inputByte, hin]; rfl
  rw [tableStepNormal, hindex, builtTable, tableEntry_of_not_refOut hout, absorb_zero, absorb_eq_topByte k h8, hinput, hinput,
    BitVec.xor_comm]

/-- The reflected step over the built table, on the reflected register, is the reflected update of the bitwise path
(R135, R143). -/
theorem tableStepReflected_builtTable (hin : k.refIn = true) (hout : k.refOut = true) (hx : reflect k.xorOut = k.xorOut)
    (r : BitVec n) (b : Byte) : tableStepReflected (builtTable k) (reflect r) b false = reflect (absorb k r b) := by
  have hinput (c : Byte) : inputByte k c = reflect c := by rw [inputByte, hin]; rfl
  have hindex : (reflect r ^^^ b.setWidth n).setWidth 8 = reflect (topByte r ^^^ inputByte k b) := by
    rw [BitVec.setWidth_xor, BitVec.setWidth_setWidth_of_le _ h8, BitVec.setWidth_eq, setWidth_reflect h8, reflect_xor, hinput,
      reflect_reflect]
  have hstep : tableStepReflected (builtTable k) (reflect r) b false =
      reflect r >>> 8 ^^^ builtTable k ((reflect r ^^^ b.setWidth n).setWidth 8) := rfl
  rw [hstep, hindex, builtTable, tableEntry_of_palindrome hout hx, absorb_zero, hinput (reflect _), reflect_reflect,
    absorb_eq_topByte k h8, reflect_xor, reflect_shiftLeft, BitVec.xor_comm]

end BuiltTable

theorem tablePartial_of_not_refIn {k : Datapath n} (h : k.refIn = false) (tbl : Byte → BitVec n) (r : BitVec n) (b : Byte)
    (first last : Bool) :
    tablePartial k tbl r b first last =
      if last then tableStepNormal tbl r b ^^^ k.xorOut else tableStepNormal tbl r b := by
  rw [tablePartial, h]
  rfl

theorem tablePartial_of_refIn {k : Datapath n} (h : k.refIn = true) (tbl : Byte → BitVec n) (r : BitVec n) (b : Byte)
    (first last : Bool) :
    tablePartial k tbl r b first last =
      if last then tableStepReflected tbl r b first ^^^ k.xorOut else tableStepReflected tbl r b first := by
  rw [tablePartial, h]
  rfl

/-- On the first byte the reflected step takes the reflected register, which the later ones hold already (R135). -/
theorem tablePartial_first_of_refIn {k : Datapath n} (h : k.refIn = true) (tbl : Byte → BitVec n) (r : BitVec n) (b : Byte)
    (last : Bool) : tablePartial k tbl r b true last = tablePartial k tbl (reflect r) b false last := by
  rw [tablePartial_of_refIn h, tablePartial_of_refIn h]
  rfl

/-- Settles O28: the steps agree, and without REFOUT both paths finalize by the XOR with XOROUT. -/
theorem normalOrientationPathsAgree : Obligations.NormalOrientationPathsAgree := by
  intro w k hin hout r b first last
  rw [tablePartial_of_not_refIn hin, tableStepNormal_builtTable k w.bits_ge hin hout]
  cases last with
  | true => rw [bitwisePartial_last, finalizeBitwise_of_not_refOut hout, if_pos rfl]
  | false => rfl

/-- Settles O29: FIRST reflects the register that the later calls hold reflected already, and a palindromic XOROUT may be XORed
before or after the reflection. -/
theorem reflectedOrientationPathsAgree : Obligations.ReflectedOrientationPathsAgree := by
  intro w k hin hout hx r b
  have hstep : tableStepReflected (builtTable k) (reflect r) b false = reflect (absorb k r b) :=
    tableStepReflected_builtTable k w.bits_ge hin hout hx r b
  have hlast : finalizeBitwise k (absorb k r b) = reflect (absorb k r b) ^^^ k.xorOut := by
    rw [finalizeBitwise_of_refOut hout, hx]
  simp only [tablePartial_first_of_refIn hin, tablePartial_of_refIn hin, hstep, bitwisePartial_not_last,
    bitwisePartial_last, hlast, if_true, Bool.false_eq_true, if_false, and_self]

/-- Settles O27: only the reflected table step looks at FIRST. -/
theorem firstMattersOnlyInReflectedTable : Obligations.FirstMattersOnlyInReflectedTable := by
  intro s l h
  have hkernel : s.kernel s.registerOperand s.byteOperand true l = s.kernel s.registerOperand s.byteOperand false l := by
    rw [State.kernel_eq, State.kernel_eq]
    rcases ht : s.cfg.table with - | t
    · rfl
    · have hin : (s.cfg.datapath s.w).refIn = false := h.resolve_left (by simp [ht])
      simp only [tablePartial_of_not_refIn hin]
  exact congrArg (fun r => Host.Outcome.next (s.setRes (zext64 r))) hkernel

/-! The fold over a message under AGREE -/

/-- In reflected orientation the table path holds the reflected register until the last byte, where the results are equal
(R143). -/
theorem foldMessage_builtTable_reflected {w : Width} {k : Datapath w.bits} (hin : k.refIn = true) (hout : k.refOut = true)
    (hx : reflect k.xorOut = k.xorOut) (r : BitVec w.bits) (b : Byte) (bs : List Byte) :
    foldMessage k (some (builtTable k)) false (reflect r) (b :: bs) = foldMessage k none false r (b :: bs) := by
  induction bs generalizing r b with
  | nil =>
    obtain ⟨-, -, -, hlast⟩ := reflectedOrientationPathsAgree w k hin hout hx r b
    exact hlast
  | cons c bs ih =>
    obtain ⟨-, hlater, -, -⟩ := reflectedOrientationPathsAgree w k hin hout hx r b
    rw [foldMessage_cons, foldMessage_cons k none, List.isEmpty_cons, kernel_some, hlater, ih, kernel_none]

/-- In normal orientation the fold over the built table is that of the bitwise path (R142). -/
theorem foldMessage_builtTable_normal {w : Width} {k : Datapath w.bits} (hin : k.refIn = false) (hout : k.refOut = false)
    (first : Bool) (r : BitVec w.bits) (msg : List Byte) :
    foldMessage k (some (builtTable k)) first r msg = foldMessage k none first r msg := by
  induction msg generalizing first r with
  | nil => rfl
  | cons b bs ih =>
    rw [foldMessage_cons, foldMessage_cons k none, kernel_some, normalOrientationPathsAgree w k hin hout, ih, kernel_none]

/-- Settles O30: AGREE is one of the two orientations in which the paths agree; in the reflected one FIRST starts the table path
from the reflected register. -/
theorem agreeingModesGiveTheSameCrc : Obligations.AgreeingModesGiveTheSameCrc := by
  intro w k ⟨hinout, hagree⟩ init msg hmsg
  obtain ⟨b, bs, rfl⟩ := List.exists_cons_of_ne_nil hmsg
  cases hin : k.refIn with
  | false => exact foldMessage_builtTable_normal hin (hinout.symm.trans hin) true init (b :: bs)
  | true =>
    have hx : reflect k.xorOut = k.xorOut := hagree.resolve_left (by simp [hin])
    rw [foldMessage_cons, kernel_some, tablePartial_first_of_refIn hin]
    exact foldMessage_builtTable_reflected hin (hinout.symm.trans hin) hx init b bs

end Sys2Proof.Machine

namespace Sys2Proof.Machine

/-! PROOFS of the statements about streams and about the three whole-buffer commands in both modes (spec/42_kernel.md R137,
R144, R145; spec/70_reset_and_hazards.md R224): a stream runs the fold of the kernel byte by byte, and the CRC of a message
under AGREE is the same with the configuration's own table as without it. -/

/-! The stream of CALC_PARTIAL -/

/-- The state after one byte of a stream: the byte in B, the kernel's result in RES and written back into A (R224). -/
def State.afterPartial (s : State) (first last : Bool) (b : Byte) : State :=
  ((s.setB (zext64 b)).setRes (zext64 (s.kernel s.registerOperand b first last))).setA
    (zext64 (s.kernel s.registerOperand b first last))

/-- A byte widened into B is the byte operand (R77). -/
theorem State.byteOperand_setB (s : State) (b : Byte) : (s.setB (zext64 b)).byteOperand = b :=
  truncTo_zext64 b (by decide)

/-- The result written back into A is the register operand of the next byte (R77). -/
theorem State.registerOperand_afterPartial (s : State) (first last : Bool) (b : Byte) :
    (s.afterPartial first last b).registerOperand = s.kernel s.registerOperand b first last :=
  truncTo_zext64 _ s.params.width.bits_le

theorem exec_calcPartial_setB (s : State) (first last : Bool) (b : Byte) :
    exec (.calcPartial first last) (s.setB (zext64 b)) =
      .next ((s.setB (zext64 b)).setRes (zext64 (s.kernel s.registerOperand b first last))) :=
  congrArg (fun c => (.next ((s.setB (zext64 b)).setRes (zext64 (s.kernel s.registerOperand c first last))) : Outcome))
    (s.byteOperand_setB b)

theorem partialStream_cons (first : Bool) (s : State) (b : Byte) (bs : List Byte) :
    partialStream first s (b :: bs) = partialStream false (s.afterPartial first bs.isEmpty b) bs := by
  rw [partialStream, exec_calcPartial_setB]
  rfl

/-- A stream runs the fold of the kernel over its bytes, from the register in A (R224). -/
theorem partialStream_eq_foldMessage (first : Bool) (s : State) (b : Byte) (bs : List Byte) :
    ∃ t, partialStream first s (b :: bs) = .next t ∧
      t.res = zext64 (foldMessage (s.cfg.datapath s.w) (s.cfg.lookup s.w) first s.registerOperand (b :: bs)) ∧
      t.cfg = s.cfg ∧ t.mem = s.mem := by
  induction bs generalizing first s b with
  | nil => exact ⟨s.afterPartial first true b, partialStream_cons first s b [], rfl, rfl, rfl⟩
  | cons c bs ih =>
    obtain ⟨t, ht, hres, hcfg, hmem⟩ := ih false (s.afterPartial first false b) c
    refine ⟨t, (partialStream_cons first s b (c :: bs)).trans ht, hres.trans ?_, hcfg, hmem⟩
    exact congrArg (fun r => zext64 (foldMessage (s.cfg.datapath s.w) (s.cfg.lookup s.w) false r (c :: bs)))
      (s.registerOperand_afterPartial first false b)

/-- Settles O32: seeded with CFG.INIT, the fold that a stream runs is the CRC of the message. -/
theorem streamGivesTheWholeCrc : Obligations.StreamGivesTheWholeCrc := by
  intro s msg hmsg ha
  obtain ⟨b, bs, rfl⟩ := List.exists_cons_of_ne_nil hmsg
  obtain ⟨t, ht, hres, hcfg, hmem⟩ := partialStream_eq_foldMessage true s b bs
  refine ⟨t, ht, ?_, hcfg, hmem⟩
  rw [hres, State.registerOperand, ha, ← State.crc_cons, zext64]

/-! The commands with the table removed -/

/-- The state with the table of CFG removed, which is then in bitwise mode (R137). -/
def State.dropTable (s : State) : State := s.setCfg { s.cfg with table := none }

/-- A table built from CFG's own fields is read as the generator computed it (R160). -/
theorem Cfg.lookup_of_built {c : Cfg} {w : Width} (h : c.table = some (buildTable (c.datapath w.bits))) :
    c.lookup w.bits = some (builtTable (c.datapath w.bits)) := by
  rw [Cfg.lookup_of_some h]
  exact congrArg some (funext fun i => buildTable_entry _ w.bits_le i)

/-- Under AGREE the CRC of every message is the same in both modes; that of no bytes is bitwise in both (R144, R171). -/
theorem State.crc_dropTable {s : State} (htable : s.cfg.table = some (buildTable (s.cfg.datapath s.w)))
    (hagree : (s.cfg.datapath s.w).Agree) (msg : List Byte) : s.dropTable.crc msg = s.crc msg := by
  cases msg with
  | nil => rfl
  | cons b bs =>
    have hmodes := agreeingModesGiveTheSameCrc _ _ hagree (truncTo s.w s.cfg.init) (b :: bs) (List.cons_ne_nil b bs)
    rw [← Cfg.lookup_of_built htable] at hmodes
    exact hmodes.symm

/-- Storing bytes does not look at CFG (R103). -/
theorem writeBytes_setCfg {s t : State} {a : Nat} {vs : List Byte} (c : Cfg) (h : writeBytes s a vs = .ok t) :
    writeBytes (s.setCfg c) a vs = .ok (t.setCfg c) := by
  induction vs generalizing s a with
  | nil =>
    cases h
    rfl
  | cons v vs ih =>
    rw [writeBytes] at h ⊢
    rcases hw : writeByte s a v with f | u
    · rw [hw] at h
      cases h
    · rw [hw] at h
      obtain ⟨ha, rfl⟩ := writeByte_ok_iff.mp hw
      have hw' : writeByte (s.setCfg c) a v = .ok ((s.setMem (s.mem.set a v)).setCfg c) :=
        writeByte_ok_iff.mpr ⟨ha, rfl⟩
      rw [hw']
      exact ih h

section OwnTable

variable {s : State} (htable : s.cfg.table = some (buildTable (s.cfg.datapath s.w)))
  (hagree : (s.cfg.datapath s.w).Agree)
include htable hagree

theorem calcBuffer_dropTable {base len : Nat} {r : BitVec s.w} (h : calcBuffer s base len = .ok r) :
    calcBuffer s.dropTable base len = .ok r := by
  rcases calcBuffer_ok h with ⟨rfl, rfl⟩ | ⟨hb, rfl, rfl⟩ | ⟨hb, -, hs, hadm, rfl⟩
  · exact calcBuffer_absent _ len
  · exact calcBuffer_zero hb
  · rw [← State.crc_dropTable htable hagree]
    exact calcBuffer_of_admits (s := s.dropTable) hb hs hadm

theorem execCalculate_dropTable {t : State} (h : execCalculate s = .next t) :
    execCalculate s.dropTable = .next t.dropTable := by
  obtain ⟨r, hc, rfl⟩ := execCalculate_next h
  exact execCalculate_of_ok (calcBuffer_dropTable htable hagree hc)

theorem execCalcAppend_dropTable {t : State} (h : execCalcAppend s = .next t) :
    execCalcAppend s.dropTable = .next t.dropTable := by
  rcases execCalcAppend_next h with ⟨hg, rfl⟩ | ⟨ha, hl, hs, r, hc, hins⟩
  · rw [t.bufAddr_eq_zero, t.wBytes_eq] at hg
    exact execCalcAppend_of_guard (s := t.dropTable) hg
  · rw [ne_eq, s.bufAddr_eq_zero] at ha
    rw [s.wBytes_eq] at hl hs
    rw [← Nat.add_assoc] at hs
    obtain ⟨-, hmem, -, -⟩ := insertBytes_ok hins
    have hdrop : t.setCfg { s.cfg with table := none } = t.dropTable := by
      rw [State.dropTable, hmem, State.setMem_cfg]
    have hstore := writeBytes_setCfg { s.cfg with table := none } hins
    rw [hdrop] at hstore
    refine (execCalcAppend_in_space (s := s.dropTable) ha hl hs).trans ?_
    rw [settle_eq_next]
    exact (congrArg (· >>= _) (calcBuffer_dropTable htable hagree hc)).trans hstore

theorem execVerify_dropTable {t : State} (h : execVerify s = .next t) : execVerify s.dropTable = .next t.dropTable := by
  rcases execVerify_next h with ⟨hg, rfl⟩ | ⟨ha, hl, r, hc, rfl⟩
  · rw [s.bufAddr_eq_zero, s.wBytes_eq] at hg
    exact execVerify_of_guard (s := s.dropTable) hg
  · rw [ne_eq, s.bufAddr_eq_zero] at ha
    rw [s.wBytes_eq] at hl
    exact execVerify_of_calc_ok (s := s.dropTable) ha hl (calcBuffer_dropTable htable hagree hc)

end OwnTable

/-- Settles O31: `calc` answers alike with the table and without it, and nothing else in the three commands looks at it. -/
theorem agreeingModesRunBufferCommandsAlike : Obligations.AgreeingModesRunBufferCommandsAlike := by
  intro s t i hi htable hagree h
  rcases hi with rfl | rfl | rfl
  · exact execCalculate_dropTable htable hagree h
  · exact execCalcAppend_dropTable htable hagree h
  · exact execVerify_dropTable htable hagree h

end Sys2Proof.Machine

namespace Sys2Proof.Machine

/-! PROOFS of the statement about the empty configuration (spec/44_whole_buffer.md, "The empty configuration"): with
polynomial 0 the kernel shifts the register up by a byte, which pushes the input byte out at the top. -/

/-! CALC_APPEND over an admitted buffer -/

/-- CALC_APPEND answers over a buffer of the space that memory admits, with the CRC of the data stored after it (R172). -/
theorem execCalcAppend_answers {s : State} (haddr : s.addr ≠ 0) (hlen : s.dlen.toNat + s.w / 8 ≤ s.len.toNat)
    (hspace : s.addr.toNat + s.dlen.toNat + s.w / 8 ≤ s.space)
    (hadm : s.AdmitsRange s.addr.toNat (s.dlen.toNat + s.w / 8)) :
    ∃ t, execCalcAppend s = .next t ∧ insertBytes s (s.bufAddr + s.dataLen) (s.crc (s.bytesAt s.bufAddr s.dataLen))
      (!s.cfg.refOut) = .ok t := by
  obtain ⟨hdata, hsum⟩ := State.admitsRange_add.mp hadm
  obtain ⟨t, ht⟩ := insertBytes_of_admits (s.crc (s.bytesAt s.bufAddr s.dataLen)) (!s.cfg.refOut) hsum
  refine ⟨t, ?_, ht⟩
  rw [execCalcAppend_of_data_admitted haddr hlen hspace hdata, settle_eq_next]
  exact ht

/-! The kernel with polynomial 0 -/

/-- With polynomial 0 the eight steps are a shift by a byte. -/
theorem divide8_of_poly_zero {n : Nat} {k : Datapath n} (h : k.poly = 0) (r : BitVec n) : divide8 k r = r <<< 8 := by
  have hstep (v : BitVec n) : shiftStep k v = v <<< 1 := by
    rw [shiftStep, h]
    split
    · exact BitVec.xor_zero
    · rfl
  have hsteps (j : Nat) : (shiftStep k)^[j] r = r <<< j := by
    induction j with
    | zero => exact (BitVec.shiftLeft_zero r).symm
    | succ j ih => rw [Function.iterate_succ_apply', ih, hstep, ← BitVec.shiftLeft_add]
  exact hsteps 8

theorem bitwisePartial_empty {n : Nat} (h8 : 8 ≤ n) (r : BitVec n) (b : Byte) (first last : Bool) :
    bitwisePartial (Cfg.empty.datapath n) r b first last = r <<< 8 := by
  have habsorb : absorb (Cfg.empty.datapath n) r b = r <<< 8 := by
    rw [absorb, divide8_of_poly_zero (by simp), foldByte_eq, BitVec.shiftLeft_xor_distrib, placeTop_shiftLeft h8,
      BitVec.xor_zero]
  cases last with
  | false => exact habsorb
  | true =>
    rw [bitwisePartial_last, habsorb, finalizeBitwise_of_not_refOut (by simp)]
    simp

/-- Under the empty configuration the fold keeps a register at 0. -/
theorem foldMessage_empty {n : Nat} (h8 : 8 ≤ n) (first : Bool) (msg : List Byte) :
    foldMessage (Cfg.empty.datapath n) none first 0 msg = 0 := by
  induction msg generalizing first with
  | nil => rfl
  | cons b bs ih =>
    have hzero : kernel (Cfg.empty.datapath n) none 0 b first bs.isEmpty = 0 :=
      (bitwisePartial_empty h8 0 b first bs.isEmpty).trans (BitVec.zero_shiftLeft 8)
    rw [foldMessage_cons, hzero, ih]

section EmptyConfiguration

variable {s : State} (hcfg : s.cfg = Cfg.empty)
include hcfg

theorem State.kernel_empty (r : BitVec s.w) (b : Byte) (first last : Bool) : s.kernel r b first last = r <<< 8 := by
  rw [State.kernel_eq, hcfg]
  exact bitwisePartial_empty s.params.width.bits_ge r b first last

/-- Under the empty configuration the CRC of every message is 0, under either policy (R171). -/
theorem State.crc_empty (msg : List Byte) : s.crc msg = 0 := by
  have hinit : truncTo s.w Cfg.empty.init = 0 := BitVec.setWidth_zero _ _
  cases msg with
  | nil =>
    rw [State.crc_nil, hcfg, hinit, Cfg.datapath_empty]
    cases s.params.zeroLen <;> simp [zeroLength, finalizeBitwise]
  | cons b bs =>
    rw [State.crc_cons, hcfg, hinit]
    exact foldMessage_empty s.params.width.bits_ge true (b :: bs)

/-- `calc` gives 0 under the empty configuration over any range it answers for. -/
theorem calcBuffer_empty {base len : Nat} (hb : base ≠ 0) (hs : base + len ≤ s.space) (hadm : s.AdmitsRange base len) :
    calcBuffer s base len = .ok 0 := by
  rw [calcBuffer_of_admits hb hs hadm, State.crc_empty hcfg]

end EmptyConfiguration

theorem byteOf_zero {n : Nat} (i : Nat) : byteOf (0 : BitVec n) i = 0 := BitVec.extractLsb'_zero

/-- The low W bits of A shifted up by a byte, as a number (R77, R15). -/
theorem State.registerOperand_shift_byte (s : State) :
    zext64 (s.registerOperand <<< 8) = BitVec.ofNat 64 (s.a.toNat % 2 ^ s.w * 256 % 2 ^ s.w) := by
  have hnum : (s.registerOperand <<< 8).toNat = s.a.toNat % 2 ^ s.w * 256 % 2 ^ s.w := by
    rw [BitVec.toNat_shiftLeft, Nat.shiftLeft_eq, State.registerOperand, truncTo, BitVec.toNat_setWidth]
  rw [← hnum]
  exact BitVec.eq_of_toNat_eq (by simp [zext64])

/-- Settles O38: the kernel only shifts, so CALC_PARTIAL gives the shifted register and `calc` gives 0. -/
theorem emptyConfigurationResults : Obligations.EmptyConfigurationResults := by
  intro s hcfg k
  refine ⟨fun f l => ?_, fun ha hs hadm => ⟨?_, fun hk => ?_⟩, fun ha hl hs hadm hwf => ?_⟩
  · rw [← s.registerOperand_shift_byte, ← State.kernel_empty hcfg s.registerOperand s.byteOperand f l]
    rfl
  · have hcalc : calcBuffer s s.bufAddr s.bufLen = .ok 0 := calcBuffer_empty hcfg (mt s.bufAddr_eq_zero.mp ha) hs hadm
    exact (execCalculate_of_ok hcalc).trans (by rw [zext64_zero]; rfl)
  · have hcalc : calcBuffer s s.bufAddr s.bufLen = .ok 0 := calcBuffer_empty hcfg (mt s.bufAddr_eq_zero.mp ha) hs hadm
    have hok : ((0 : BitVec s.w) ^^^ truncTo s.w s.cfg.xorOut == truncTo s.w s.cfg.residue) = true := by
      rw [hcfg]
      simp [Cfg.empty, truncTo]
    refine (execVerify_of_calc_ok ha hk hcalc).trans ?_
    rw [hok, State.setVerdict_eq]
    rfl
  · rw [← Nat.add_assoc] at hs
    obtain ⟨t, happend, hins⟩ := execCalcAppend_answers ha hl hs hadm
    rw [State.crc_empty hcfg] at hins
    obtain ⟨-, hmem, -, hbytes⟩ := insertBytes_ok hins
    refine ⟨t, happend, hmem, fun i hi => ?_⟩
    rw [← byteOf_zero]
    exact (hbytes hwf).2 i hi

end Sys2Proof.Machine

namespace Sys2Proof.Machine

/-! PROOFS of the statements about a message followed by its own checksum (spec/44_whole_buffer.md R173, R175, R176). The bytes
of a value, fed in from the most significant on, act on the register as the value XORed into it; a checksum is the register
itself XORed with XOROUT, so feeding it in leaves XOROUT alone, whatever the message was. -/

variable {n : Nat}

/-! The bitwise CRC as a fold of register updates -/

theorem foldMessage_none_eq (k : Datapath n) (first : Bool) (r : BitVec n) (b : Byte) (bs : List Byte) :
    foldMessage k none first r (b :: bs) = finalizeBitwise k ((b :: bs).foldl (absorb k) r) := by
  induction bs generalizing first r b with
  | nil => rfl
  | cons c bs ih => exact ih false (absorb k r b) c

/-- The bitwise CRC finalizes the register that the bytes of the message leave, those of the empty message too (R170, R171). -/
theorem bitwiseCrc_eq (k : Datapath n) (init : BitVec n) (msg : List Byte) :
    bitwiseCrc k init msg = finalizeBitwise k (msg.foldl (absorb k) init) := by
  cases msg with
  | nil => rfl
  | cons b bs => exact foldMessage_none_eq k true init b bs

/-! Feeding in the bytes of a value -/

/-- The register update on a byte in the order R130 folds it in. -/
def feed (k : Datapath n) (r : BitVec n) (b : Byte) : BitVec n := divide8 k (r ^^^ placeTop n b)

/-- Feeding the bytes of a value from its top on: the register with the value XORed in, divided by as many bytes, but for what
is left of the value. -/
theorem foldl_feed_topBytes (k : Datapath n) (h8 : 8 ≤ n) (r v : BitVec n) (m : Nat) :
    (divide8 k)^[m] (r ^^^ v) = ((List.range m).map fun j => topByte (v <<< (8 * j))).foldl (feed k) r ^^^ v <<< (8 * m) := by
  induction m with
  | zero => simp
  | succ m ih =>
    rw [Function.iterate_succ_apply', ih, divide8_xor, divide8_eq_topByte k h8 (v <<< (8 * m)), ← BitVec.xor_assoc,
      ← divide8_xor, ← BitVec.shiftLeft_add, List.range_succ, List.map_append, List.foldl_append]
    rfl

/-- The bytes of a value from the most significant on are the top bytes of its shifts (R103). -/
theorem bytesOf_eq_topBytes (hn : 8 ∣ n) (v : BitVec n) :
    bytesOf v true = (List.range (n / 8)).map fun j => topByte (v <<< (8 * j)) := by
  refine List.map_congr_left fun j hj => BitVec.eq_of_getLsbD_eq fun i hi => ?_
  have hj : j < n / 8 := List.mem_range.mp hj
  have h1 : n - 8 + i < n := by omega
  have h2 : ¬ n - 8 + i < 8 * j := by omega
  have h3 : 8 * (n / 8 - 1 - j) + i = n - 8 + i - 8 * j := by omega
  rw [if_pos rfl, byteOf, topByte, BitVec.getLsbD_extractLsb', BitVec.getLsbD_setWidth, BitVec.getLsbD_ushiftRight,
    BitVec.getLsbD_shiftLeft, h3]
  simp only [hi, h1, h2, decide_true, decide_false, Bool.not_false, Bool.true_and]

/-- Feeding in all bytes of a value divides the register with the value XORed in. -/
theorem foldl_feed_bytesOf (k : Datapath n) (h8 : 8 ≤ n) (hn : 8 ∣ n) (r v : BitVec n) :
    (bytesOf v true).foldl (feed k) r = (divide8 k)^[n / 8] (r ^^^ v) := by
  rw [foldl_feed_topBytes k h8, bytesOf_eq_topBytes hn, Nat.mul_div_cancel' hn, BitVec.shiftLeft_eq_zero le_rfl,
    BitVec.xor_zero]

/-! The checksum in the byte order of CALC_APPEND -/

/-- Byte j of a reflected value is the reflection of the byte as far from the other end (R100, R103). -/
theorem reflect_byteOf_reflect (hn : 8 ∣ n) (v : BitVec n) {j : Nat} (hj : j < n / 8) :
    reflect (byteOf (reflect v) j) = byteOf v (n / 8 - 1 - j) := by
  refine BitVec.eq_of_getLsbD_eq fun i hi => ?_
  have h1 : 8 - 1 - i < 8 := by omega
  have h2 : 8 * j + (8 - 1 - i) < n := by omega
  have h3 : n - 1 - (8 * j + (8 - 1 - i)) = 8 * (n / 8 - 1 - j) + i := by omega
  rw [reflect_getLsbD, byteOf, byteOf, BitVec.getLsbD_extractLsb', BitVec.getLsbD_extractLsb', reflect_getLsbD, h3]
  simp [hi, h1, h2]

/-- With REFIN = REFOUT the kernel takes in the appended checksum as the bytes of the register XORed with XOROUT, from the most
significant on (R173). -/
theorem map_inputByte_checksum {k : Datapath n} (hn : 8 ∣ n) (hinout : k.refIn = k.refOut) (r : BitVec n) :
    (bytesOf (finalizeBitwise k r) (!k.refOut)).map (inputByte k) = bytesOf (r ^^^ k.xorOut) true := by
  rw [bytesOf, bytesOf, List.map_map]
  refine List.map_congr_left fun j hj => ?_
  have hj : j < n / 8 := List.mem_range.mp hj
  cases hout : k.refOut with
  | false => simp [inputByte, hinout, hout, finalizeBitwise]
  | true => simpa [inputByte, hinout, hout, finalizeBitwise] using reflect_byteOf_reflect hn (r ^^^ k.xorOut) hj

/-- Feeding a checksum into the register it was made from leaves XOROUT, divided by as many bytes (R175). -/
theorem foldl_absorb_checksum {k : Datapath n} (h8 : 8 ≤ n) (hn : 8 ∣ n) (hinout : k.refIn = k.refOut) (r : BitVec n) :
    (bytesOf (finalizeBitwise k r) (!k.refOut)).foldl (absorb k) r = (divide8 k)^[n / 8] k.xorOut := by
  calc (bytesOf (finalizeBitwise k r) (!k.refOut)).foldl (absorb k) r
    _ = ((bytesOf (finalizeBitwise k r) (!k.refOut)).map (inputByte k)).foldl (feed k) r := by
      rw [List.foldl_map]
      rfl
    _ = (divide8 k)^[n / 8] (r ^^^ (r ^^^ k.xorOut)) := by
      rw [map_inputByte_checksum hn hinout, foldl_feed_bytesOf k h8 hn]
    _ = (divide8 k)^[n / 8] k.xorOut := by rw [← BitVec.xor_assoc, BitVec.xor_self, BitVec.zero_xor]

/-- The residue (R175): the CRC of a message with its checksum, from XOROUT alone. -/
theorem bitwiseCrc_appended {k : Datapath n} (h8 : 8 ≤ n) (hn : 8 ∣ n) (hinout : k.refIn = k.refOut) (init : BitVec n)
    (msg : List Byte) : bitwiseCrc k init (appended k init msg) = finalizeBitwise k ((divide8 k)^[n / 8] k.xorOut) := by
  rw [bitwiseCrc_eq, appended, List.foldl_append, bitwiseCrc_eq, foldl_absorb_checksum h8 hn hinout]

/-- Widths are whole numbers of bytes. -/
theorem eight_dvd_bits (w : Width) : 8 ∣ w.bits := ⟨w.bytes, w.bits_eq⟩

/-- Settles O39: neither side depends on its message. -/
theorem residueIsMessageIndependent : Obligations.ResidueIsMessageIndependent := by
  intro w k hinout init msg msg'
  have hn := eight_dvd_bits w
  rw [bitwiseCrc_appended w.bits_ge hn hinout, bitwiseCrc_appended w.bits_ge hn hinout]

/-! CALC_APPEND and then VERIFY -/

/-- CFG is in bitwise mode with REFIN = REFOUT, or holds its own table and satisfies AGREE (R176). -/
def State.ModesAgree (s : State) : Prop :=
  (s.cfg.table = none ∧ (s.cfg.datapath s.w).refIn = (s.cfg.datapath s.w).refOut) ∨
    (s.cfg.table = some (buildTable (s.cfg.datapath s.w)) ∧ (s.cfg.datapath s.w).Agree)

theorem State.ModesAgree.refIn_eq {s : State} (h : s.ModesAgree) :
    (s.cfg.datapath s.w).refIn = (s.cfg.datapath s.w).refOut := by
  rcases h with ⟨-, hinout⟩ | ⟨-, hinout, -⟩ <;> exact hinout

/-- The CRC of a state in bitwise mode under Finalize is the bitwise CRC. -/
theorem State.crc_of_no_table {s : State} (hpolicy : s.params.zeroLen = .finalize) (h : s.cfg.table = none)
    (msg : List Byte) : s.crc msg = bitwiseCrc (s.cfg.datapath s.w) (truncTo s.w s.cfg.init) msg := by
  cases msg with
  | nil =>
    rw [State.crc_nil, hpolicy]
    rfl
  | cons b bs =>
    rw [State.crc_cons, Cfg.lookup_of_none h]
    rfl

/-- Under Finalize the CRC is the bitwise one in both modes, where they agree (R144). -/
theorem State.crc_eq_bitwiseCrc {s : State} (hpolicy : s.params.zeroLen = .finalize) (h : s.ModesAgree) (msg : List Byte) :
    s.crc msg = bitwiseCrc (s.cfg.datapath s.w) (truncTo s.w s.cfg.init) msg := by
  rcases h with ⟨hnone, -⟩ | ⟨htable, hagree⟩
  · exact State.crc_of_no_table hpolicy hnone msg
  · rw [← State.crc_dropTable htable hagree]
    exact State.crc_of_no_table (s := s.dropTable) hpolicy rfl msg

/-- The bytes of a range are those of its two parts. -/
theorem State.bytesAt_add (s : State) (a j k : Nat) : s.bytesAt a (j + k) = s.bytesAt a j ++ s.bytesAt (a + j) k := by
  simp only [State.bytesAt, List.range_add, List.map_append, List.map_map, Function.comp_def, Nat.add_assoc]

/-- Bytes stored directly after a range follow the bytes of the range, in canonical memory (R103). -/
theorem bytesAt_of_insertBytes {s t : State} {a j : Nat} {v : BitVec n} {be : Bool} (hwf : s.mem.wf)
    (h : insertBytes s (a + j) v be = .ok t) : t.bytesAt a (j + n / 8) = s.bytesAt a j ++ bytesOf v be := by
  obtain ⟨-, -, hframe, hbytes⟩ := insertBytes_ok h
  rw [State.bytesAt_add]
  congr 1
  · exact List.map_congr_left fun i hi => hframe (a + i) (.inl (Nat.add_lt_add_left (List.mem_range.mp hi) a))
  · exact List.map_congr_left fun i hi => (hbytes hwf).2 i (List.mem_range.mp hi)

/-- Settles O40: the buffer then holds the data with its checksum, whose CRC is that of the empty message with its own. -/
theorem appendThenVerifySucceeds : Obligations.AppendThenVerifySucceeds := by
  intro s k init hpolicy hwf hmodes hresidue ha hlen hspace hadm
  have hmodes : s.ModesAgree := hmodes
  have hcrc : ∀ msg, s.crc msg = bitwiseCrc k init msg := State.crc_eq_bitwiseCrc hpolicy hmodes
  obtain ⟨t, happend, hins⟩ :=
    execCalcAppend_answers ha hlen.ge (by rw [Nat.add_assoc, ← hlen]; exact hspace) (hlen ▸ hadm)
  have hbytes : t.bytesAt s.bufAddr s.bufLen = appended k init (s.bytesAt s.bufAddr s.dataLen) := by
    rw [State.bufLen, hlen, appended, ← hcrc]
    exact bytesAt_of_insertBytes hwf hins
  obtain ⟨m, rfl, -, -⟩ := insertBytes_writes hins
  have hcalc : calcBuffer (s.setMem m) s.bufAddr s.bufLen =
      .ok (s.crc (appended k init (s.bytesAt s.bufAddr s.dataLen))) := by
    rw [← hbytes]
    exact calcBuffer_of_admits (s := s.setMem m) (mt s.bufAddr_eq_zero.mp ha) hspace hadm
  rw [hcrc, residueIsMessageIndependent _ k hmodes.refIn_eq init _ []] at hcalc
  have hok : (bitwiseCrc k init (appended k init []) ^^^ truncTo s.w s.cfg.xorOut == truncTo s.w s.cfg.residue) = true := by
    rw [hresidue, beq_iff_eq]
    exact (truncTo_zext64 _ s.params.width.bits_le).symm
  have hshort : s.w / 8 ≤ s.len.toNat := by
    rw [hlen]
    exact Nat.le_add_left _ _
  refine ⟨s.setMem m, _, happend, execVerify_of_calc_ok (s := s.setMem m) ha hshort hcalc, hok, ?_⟩
  exact congrArg (bitAt · 0) hok

end Sys2Proof.Machine
